-- ==== Sys2Proof/Word.lean ====
section
/-! DEFINITION. The units the block works on: bytes, the 64-bit address and the 16-bit network address (spec/00_scope.md R8). -/

namespace Sys2Proof

/-- A byte, 8 bits, bit 0 least significant (R8, R10). `+8` of R12 is addition of this type. -/
abbrev Byte := BitVec 8

/-- A 64-bit device address (R8, R64). -/
abbrev Address := BitVec 64

/-- A 16-bit network address (R8, R64). -/
abbrev NetAddress := BitVec 16

end Sys2Proof
end

