-- ==== Sys2Proof/Config.lean ====
section
/-! DEFINITION. What is fixed for the machine: the hardwired constants of spec/10_state.md R30, the two OPEN parameters
of spec/00_scope.md R9 (opaque: nothing can be proved about their values), and the names of the parser's phases. -/

namespace Sys2Proof

/-- The four phases of the parser's state table (R21). An enumeration, as R21 allows; the numbers are in Machine/Flags.lean. -/
inductive Phase where
  | seekHeader
  | expectLengthHigh
  | readLengthLow
  | collect
  deriving DecidableEq, Repr

namespace Config

/-- `HEADER`, the start-of-frame marker (R30). -/
def header : Byte := 0x7E#8

/-- `LEN_HI_REQUIRED` (R30). -/
def lenHiRequired : Byte := 0x00#8

/-- `LEN_REMOTE_AT`, the length field of every composed frame (R30, R92). -/
def lenRemoteAt : BitVec 16 := 0x0010#16

/-- `API_ID_REMOTE_AT` (R30). -/
def apiIdRemoteAt : Byte := 0x17#8

/-- `BROADCAST_ADDR` (R30, R64; conflict C7). -/
def broadcastAddr : Address := 0x000000000000FFFF#64

/-- `BROADCAST_NET` (R30, R64). -/
def broadcastNet : NetAddress := 0xFFFE#16

/-- `FRAME_ID_DEFAULT` (R30, R91). -/
def frameIdDefault : Byte := 0x00#8

/-- `OPT_APPLY_CHANGES` (R30, R66). -/
def optApplyChanges : Byte := 0x02#8

/-- `DIGITAL_HIGH` (R30, R68). -/
def digitalHigh : Byte := 0x05#8

/-- `CHECK_TARGET`, fixed at 0xFF by the resolution of conflict C1 (R9, R30, D1). Log entry 12. -/
def checkTarget : Byte := 0xFF#8

/-- `PAYLOAD_MAX` (R9, R30). -/
def payloadMax : Nat := 255

/-- `DIGITAL_LOW`: an OPEN parameter (R9, R68, D10). A free value: nothing is known of it. Log entry 5. -/
opaque digitalLow : Byte

/-- How many parser instances there are beside instance 0: a free value. Log entry 4. -/
opaque moreStreams : Nat

/-- `N_STREAMS`: an OPEN parameter, any integer ≥ 1 (R9, D12). -/
def nStreams : Nat := moreStreams + 1

end Config

end Sys2Proof
end

