-- ==== Sys2Proof/Syntax.lean ====
section
/-! DEFINITION. The operations of the block: one constructor per row of spec/opcode_table.json. The first eight rows are
operation requests (spec/30_encoding.md R69 to R71); the last eight are the rows of the parser's byte decode table (R72),
which a FEED_BYTE request selects by the instance's registers and its byte. -/

namespace Sys2Proof

/-- The optional operands that COMPOSE and the convenience constructors share; `none` is an absent operand (R69, R70, R91). -/
structure Target where
  frameId : Option Byte
  address : Option Address
  network : Option NetAddress
  deriving DecidableEq, Repr

/-- One operation of the block. -/
inductive Instr where
  /-- `reset <inst>` (R121) -/
  | reset (inst : Byte)
  /-- `close <inst>` (R122) -/
  | close (inst : Byte)
  /-- `feed_byte <inst>, <byte>` (R123) -/
  | feedByte (inst : Byte) (b : Byte)
  /-- `compose` (R90); `name` may have any length a request can spell -/
  | compose (options : Byte) (target : Target) (name : List Byte) (data : Byte)
  /-- `checksum_of` (R95) -/
  | checksumOf (span : List Byte)
  /-- `build_digital_output_frame` (R96); `on` is the request's byte, 0 = off, any other value = on (R70) -/
  | buildDigitalOutput (pin : Byte) (on : Byte) (target : Target)
  /-- `build_pin_config_frame` (R97) -/
  | buildPinConfig (pin : Byte) (config : Byte) (target : Target)
  /-- `(reserved)`: a request whose header byte spells no operation (R71) -/
  | reserved (header : Byte)
  /-- row SeekHeader/header (R124); its byte is 0x7E -/
  | seekHeaderHeader (inst : Byte)
  /-- row SeekHeader/discard (R125) -/
  | seekHeaderDiscard (inst : Byte) (b : Byte)
  /-- row ExpectLengthHigh/zero (R126); its byte is 0x00 -/
  | expectLengthHighZero (inst : Byte)
  /-- row ExpectLengthHigh/resync (R127) -/
  | expectLengthHighResync (inst : Byte) (b : Byte)
  /-- row ReadLengthLow/length (R128) -/
  | readLengthLowLength (inst : Byte) (b : Byte)
  /-- row Collect/payload (R129) -/
  | collectPayload (inst : Byte) (b : Byte)
  /-- row Collect/frame_ok (R130) -/
  | collectFrameOk (inst : Byte) (b : Byte)
  /-- row Collect/frame_bad (R131) -/
  | collectFrameBad (inst : Byte) (b : Byte)
  deriving DecidableEq, Repr

end Sys2Proof
end

