-- ==== Sys2Proof/Decode.lean ====
section
/-! DEFINITION. From bytes to operations and back. Two things are decoded on this hardware: an operation REQUEST
(`decode`, spec/30_encoding.md R69 to R71) and, inside FEED_BYTE, a BYTE in a phase (`decodeByte`, R72). The byte-order
helpers (R11, R42, R63) stand here too. -/

namespace Sys2Proof

/-! ### Byte order (R11, R42, R63) -/

/-- `BE_n(v)`: the n bytes of `v`, most significant first; byte k is `v[8n-1-8k : 8n-8-8k]` (R11). -/
def be (n : Nat) {w : Nat} (v : BitVec w) : List Byte :=
  (List.range n).map fun k => v.extractLsb' (8 * (n - 1 - k)) 8

/-- The number a big-endian byte sequence spells (the inverse of `be`; R42). -/
def ofBE (bs : List Byte) : Nat :=
  bs.foldl (fun acc b => 256 * acc + b.toNat) 0

/-! ### The header byte (R69) -/

/-- `req[2:0]`, the operation select. -/
def opField (h : Byte) : BitVec 3 := h.extractLsb' 0 3

/-- `req[3]`, frame_id present. -/
def hasFrameId (h : Byte) : Bool := h.getLsbD 3

/-- `req[4]`, address present. -/
def hasAddress (h : Byte) : Bool := h.getLsbD 4

/-- `req[5]`, network address present. -/
def hasNetwork (h : Byte) : Bool := h.getLsbD 5

/-- `req[7:6]`, reserved, must be 00. -/
def reservedBits (h : Byte) : BitVec 2 := h.extractLsb' 6 2

/-- `req[5:3]`, the three presence bits together. -/
def presenceBits (h : Byte) : BitVec 3 := h.extractLsb' 3 3

/-- The operations that admit no presence bit: RESET, CLOSE, FEED_BYTE, CHECKSUM_OF (R71). -/
def takesNoPresenceBits (op : BitVec 3) : Bool :=
  op == 0b000#3 || op == 0b001#3 || op == 0b010#3 || op == 0b100#3

/-- The header bytes that spell no operation (R71). -/
def isReservedHeader (h : Byte) : Bool :=
  opField h == 0b111#3 || reservedBits h != 0b00#2 ||
    (takesNoPresenceBits (opField h) && presenceBits h != 0b000#3)

/-- The header byte `00naf<op>` (R69, R70). -/
def headerByte (op : BitVec 3) (t : Target) : Byte :=
  0b00#2 ++ BitVec.ofBool t.network.isSome ++ BitVec.ofBool t.address.isSome ++
    BitVec.ofBool t.frameId.isSome ++ op

/-- No optional operand present. -/
def Target.absent : Target := ⟨none, none, none⟩

/-! ### Reading a body: each reader answers what it read and the bytes after it, or none where bytes lack -/

/-- One byte. -/
def takeByte : List Byte → Option (Byte × List Byte)
  | [] => none
  | b :: bs => some (b, bs)

/-- `n` bytes. -/
def takeBytes (n : Nat) (bs : List Byte) : Option (List Byte × List Byte) :=
  if bs.length < n then none else some (bs.take n, bs.drop n)

/-- An n-byte big-endian field of w bits. -/
def takeBE (n w : Nat) (bs : List Byte) : Option (BitVec w × List Byte) :=
  (takeBytes n bs).map fun r => (BitVec.ofNat w (ofBE r.1), r.2)

/-- The same field, where its presence bit says it is there. -/
def takeOptBE (present : Bool) (n w : Nat) (bs : List Byte) : Option (Option (BitVec w) × List Byte) :=
  if present then (takeBE n w bs).map fun r => (some r.1, r.2) else some (none, bs)

/-- frame_id, address, network_address, each if its presence bit is set (R70). -/
def takeTarget (h : Byte) (bs : List Byte) : Option (Target × List Byte) :=
  (takeOptBE (hasFrameId h) 1 8 bs).bind fun f =>
  (takeOptBE (hasAddress h) 8 64 f.2).bind fun a =>
  (takeOptBE (hasNetwork h) 2 16 a.2).bind fun n =>
  some (⟨f.1, a.1, n.1⟩, n.2)

/-! ### The request bodies (R70) -/

/-- `inst[7:0]`, for RESET and CLOSE. -/
def readInst (mk : Byte → Instr) (bs : List Byte) : Option (Instr × List Byte) :=
  (takeByte bs).map fun i => (mk i.1, i.2)

/-- FEED_BYTE: `inst[7:0]`, `byte[7:0]`. -/
def readFeedByte (bs : List Byte) : Option (Instr × List Byte) :=
  (takeByte bs).bind fun i =>
  (takeByte i.2).map fun b => (.feedByte i.1 b.1, b.2)

/-- COMPOSE: cmd_options, the optional operands, name_len, the name, cmd_data. -/
def readCompose (h : Byte) (bs : List Byte) : Option (Instr × List Byte) :=
  (takeByte bs).bind fun o =>
  (takeTarget h o.2).bind fun t =>
  (takeByte t.2).bind fun l =>
  (takeBytes l.1.toNat l.2).bind fun n =>
  (takeByte n.2).map fun d => (.compose o.1 t.1 n.1 d.1, d.2)

/-- CHECKSUM_OF: a 32-bit span_len, then the span. -/
def readChecksumOf (bs : List Byte) : Option (Instr × List Byte) :=
  (takeBE 4 32 bs).bind fun l =>
  (takeBytes l.1.toNat l.2).map fun s => (.checksumOf s.1, s.2)

/-- The convenience constructors: pin, one more byte (on, or config), the optional operands. -/
def readBuild (mk : Byte → Byte → Target → Instr) (h : Byte) (bs : List Byte) : Option (Instr × List Byte) :=
  (takeByte bs).bind fun p =>
  (takeByte p.2).bind fun d =>
  (takeTarget h d.2).map fun t => (mk p.1 d.1 t.1, t.2)

/-- What a header and the bytes after it spell, with the bytes left over; none where the body is too short. A reserved
header has no body: whatever follows it is not looked at (R71, vectors V-R8 to V-R10). -/
def decodeBody (h : Byte) (bs : List Byte) : Option (Instr × List Byte) :=
  if isReservedHeader h then some (.reserved h, [])
  else match (opField h).toNat with
    | 0 => readInst .reset bs
    | 1 => readInst .close bs
    | 2 => readFeedByte bs
    | 3 => readCompose h bs
    | 4 => readChecksumOf bs
    | 5 => readBuild .buildDigitalOutput h bs
    | 6 => readBuild .buildPinConfig h bs
    | _ => some (.reserved h, [])

/-- Why presented bytes are no request of the format at all (log entry 9). -/
inductive DecodeError where
  /-- no header byte -/
  | empty
  /-- the body ends before the header's operands do -/
  | truncated
  /-- bytes follow the body's last operand -/
  | trailing
  deriving DecidableEq, Repr

/-- The request decoder, total on any bytes (R69 to R71). A reserved header decodes to `.reserved`, by name; bytes that
are too few or too many for their header are rejected by a name of `DecodeError`. -/
def decode : List Byte → Except DecodeError Instr
  | [] => .error .empty
  | h :: bs =>
    match decodeBody h bs with
    | none => .error .truncated
    | some (i, []) => .ok i
    | some (_, _ :: _) => .error .trailing

/-! ### The byte decode table (R72) -/

/-- Whether `rc +8 b` is the value a valid frame ends with (R72, R130; conflict C1, D1). -/
def checksumMatches (rc b : Byte) : Bool := rc + b == Config.checkTarget

/-- The row of the byte decode table that the registers and the byte select: for every phase and byte exactly one (R72). -/
def decodeByte (phase : Phase) (remainingLength runningChecksum inst b : Byte) : Instr :=
  match phase with
  | .seekHeader => if b == Config.header then .seekHeaderHeader inst else .seekHeaderDiscard inst b
  | .expectLengthHigh => if b == Config.lenHiRequired then .expectLengthHighZero inst else .expectLengthHighResync inst b
  | .readLengthLow => .readLengthLowLength inst b
  | .collect =>
    if remainingLength != 0x00#8 then .collectPayload inst b
    else if checksumMatches runningChecksum b then .collectFrameOk inst b
    else .collectFrameBad inst b

/-! ### The encoder -/

/-- A present optional operand's bytes, or none (R70). -/
def encodeOpt (n : Nat) {w : Nat} : Option (BitVec w) → List Byte
  | none => []
  | some v => be n v

/-- frame_id, address, network_address, in the order of R70. -/
def encodeTarget (t : Target) : List Byte :=
  encodeOpt 1 t.frameId ++ encodeOpt 8 t.address ++ encodeOpt 2 t.network

/-- The FEED_BYTE request, which also carries the byte of every byte-decode row (R62, R70). -/
def encodeFeed (inst b : Byte) : List Byte := [headerByte 0b010#3 .absent, inst, b]

/-- The request bytes of an operation (R69, R70). A byte-decode row is presented as the FEED_BYTE that carries its byte. -/
def encode : Instr → List Byte
  | .reset inst => [headerByte 0b000#3 .absent, inst]
  | .close inst => [headerByte 0b001#3 .absent, inst]
  | .feedByte inst b => encodeFeed inst b
  | .compose o t n d => headerByte 0b011#3 t :: o :: encodeTarget t ++ BitVec.ofNat 8 n.length :: n ++ [d]
  | .checksumOf s => headerByte 0b100#3 .absent :: be 4 (BitVec.ofNat 32 s.length) ++ s
  | .buildDigitalOutput p on t => headerByte 0b101#3 t :: p :: on :: encodeTarget t
  | .buildPinConfig p c t => headerByte 0b110#3 t :: p :: c :: encodeTarget t
  | .reserved h => [h]
  | .seekHeaderHeader inst => encodeFeed inst Config.header
  | .seekHeaderDiscard inst b => encodeFeed inst b
  | .expectLengthHighZero inst => encodeFeed inst Config.lenHiRequired
  | .expectLengthHighResync inst b => encodeFeed inst b
  | .readLengthLowLength inst b => encodeFeed inst b
  | .collectPayload inst b => encodeFeed inst b
  | .collectFrameOk inst b => encodeFeed inst b
  | .collectFrameBad inst b => encodeFeed inst b

/-! ### Words as spec/opcode_table.json numbers them -/

/-- How many bytes the request has whose bytes are `bs` and then zeros. -/
def requestLength (bs : List Byte) : Nat :=
  let h := bs.headD 0x00#8
  let operands := (if hasFrameId h then 1 else 0) + (if hasAddress h then 8 else 0) + (if hasNetwork h then 2 else 0)
  if isReservedHeader h then 1
  else match (opField h).toNat with
    | 2 => 3
    | 3 => 4 + operands + (bs.getD (2 + operands) 0x00#8).toNat
    | 4 => 5 + ofBE [bs.getD 1 0x00#8, bs.getD 2 0x00#8, bs.getD 3 0x00#8, bs.getD 4 0x00#8]
    | 5 => 3 + operands
    | 6 => 3 + operands
    | _ => 2

/-- The bytes of a word of `nbits` bits, bits 7..0 first. -/
def wordBytes (nbits w : Nat) : List Byte :=
  (List.range ((nbits + 7) / 8)).map fun k => BitVec.ofNat 8 (w / 256 ^ k)

/-- The request whose first bytes are the word's and whose other operand bytes are zero. -/
def zeroExtended (bs : List Byte) : List Byte :=
  (bs ++ List.replicate (requestLength bs - bs.length) 0x00#8).take (requestLength bs)

/-- Whether a table word is read as a byte of the byte decode table, and not as a request's header: the one byte the
table gives a row for, 0x7E of SeekHeader/header, that is no header of a request row of the table (log entry 11). -/
def isByteRowWord (nbits w : Nat) : Bool := nbits ≤ 8 && w == Config.header.toNat

/-- The request bytes that present a table word to the block: the request itself, or, for a byte-decode row, the
FEED_BYTE of instance 0 that carries the byte (log entry 11). -/
def requestOfWord (nbits w : Nat) : List Byte :=
  if isByteRowWord nbits w then encodeFeed 0x00#8 (BitVec.ofNat 8 w) else zeroExtended (wordBytes nbits w)

/-- The operation the decoders read from a word of spec/opcode_table.json: the request decoder, or, for a byte-decode
row's word, the byte decode table in the phase after reset (log entry 11). -/
def decodeTableWord (nbits w : Nat) : Option Instr :=
  if isByteRowWord nbits w then some (decodeByte .seekHeader 0x00#8 0x00#8 0x00#8 (BitVec.ofNat 8 w))
  else (decode (requestOfWord nbits w)).toOption

end Sys2Proof
end

