-- ==== Sys2Proof/Machine/State.lean ====
section
/-! DEFINITION. The state of the machine (spec/10_state.md R20 to R32), the outputs of a step (R29), the exceptional
outcomes (spec/60_exceptions.md R160), and the state after reset (spec/70_reset_and_hazards.md R180). -/

namespace Sys2Proof.Machine

/-- The event output of a FEED_BYTE step: what the byte did (R29; codes in Machine/Flags.lean). -/
inductive Event where
  | discard
  | header
  | lenHi
  | resync
  | lenLo
  | payload
  | frameOk
  | frameBad
  deriving DecidableEq, Repr

/-- The fatal fault an instance can record: only STATE_DESTROYED (R26, R161). -/
inductive FaultCode where
  | stateDestroyed
  deriving DecidableEq, Repr

/-- The exceptional outcomes of R160, each with the value the table of R160 records. -/
inductive Exceptional where
  /-- CMD_NAME_LENGTH, a contract violation; the supplied name_len (R94, R162) -/
  | cmdNameLength (nameLen : Nat)
  /-- PIN_RANGE, a contract violation; the supplied pin (R96, R97, R162) -/
  | pinRange (pin : Byte)
  /-- STATE_DESTROYED, a fault; the instance and the byte that was not consumed (R161) -/
  | stateDestroyed (inst : Byte) (b : Byte)
  /-- RESERVED_ENCODING, a refusal; the header byte (R71, R163) -/
  | reservedEncoding (header : Byte)
  /-- NO_SUCH_INSTANCE, a refusal; inst (R71, R163) -/
  | noSuchInstance (inst : Byte)
  deriving DecidableEq, Repr

/-- What a request answers its requester with, in the step that serves it (R48, R94, R95, R162, R163, R168). -/
inductive Reply where
  /-- a composed frame, its bytes in wire order (R46, R61) -/
  | frame (bytes : List Byte)
  /-- the byte of CHECKSUM_OF (R95) -/
  | checksum (c : Byte)
  /-- an exceptional outcome (R160) -/
  | raised (e : Exceptional)
  deriving DecidableEq, Repr

/-- What one step drove: the event output and the frame output of R29, and the reply. Not the spec's state: held so that
a step's outputs can be read, and written afresh by every step (R166, R188). Log entry 1. -/
structure Output where
  event : Option Event
  frame : Option (List Byte)
  reply : Option Reply
  deriving DecidableEq, Repr

/-- Nothing driven (R182). -/
def Output.none : Output := ⟨Option.none, Option.none, Option.none⟩

/-- The registers of one parser instance (R21 to R26). -/
structure Parser where
  /-- R21 -/
  phase : Phase
  /-- R22 -/
  remainingLength : Byte
  /-- R23 -/
  runningChecksum : Byte
  /-- R24: the sequence view `payload[0..plen-1]`; `plen` is its length (log entry 19) -/
  payload : List Byte
  /-- `open`, R25 -/
  isOpen : Bool
  /-- R26: the model-level record of a fatal fault -/
  fault : Option FaultCode
  deriving DecidableEq, Repr

/-- The initial state of an instance: the reset column of spec/10_state.md and R180. -/
def Parser.initial : Parser where
  phase := .seekHeader
  remainingLength := 0x00#8
  runningChecksum := 0x00#8
  payload := []
  isOpen := true
  fault := none

/-- What the surroundings present to the block at a step (log entries 2 and 15). -/
inductive Input where
  /-- a request: its header byte and body (R69) -/
  | request (bytes : List Byte)
  /-- a hardware reset of the block (R180, R182) -/
  | hardwareReset
  deriving DecidableEq, Repr

/-- The state of the block. -/
structure State where
  /-- the parser instances; element `inst` is instance `inst`, and their number is N_STREAMS (R9, R173) -/
  parsers : List Parser
  /-- the refusal mark, kept for the whole run (R163) -/
  refusalMark : Bool
  /-- the outputs of the last step (R29; log entry 1) -/
  out : Output
  /-- what the surroundings will present, in order (log entry 2) -/
  pending : List Input
  deriving DecidableEq, Repr

/-- Why the machine stops with a fault. -/
inductive Fault where
  /-- Raised by the meaning of a byte-decode row, presented by itself in a state whose registers (this phase among them)
  select another row: R72 gives it no transition there. Safe: no step of the machine raises it, since FEED_BYTE runs the
  row that is selected. Log entry 10. -/
  | rowNotSelected (phase : Phase)
  deriving DecidableEq, Repr

/-- Why the machine gives what was presented no meaning. -/
inductive Refusal where
  /-- Raised by an arm of `exec` for an operation that has no meaning yet (none is left). Safe. -/
  | notModelled (mnemonic : String)
  /-- Raised by `step` for presented bytes that are too few or too many for their header: R70 spells no operation with
  them and no rule says what the block does. Safe: the machine stops. Log entry 9. -/
  | malformedRequest (e : DecodeError)
  deriving DecidableEq, Repr

/-- The machine right after a hardware reset: every instance 0 .. N_STREAMS-1 open and initial (R180), no output driven
(R182), no refusal recorded, nothing presented (log entries 2, 4, 6, 14). -/
def State.reset : State where
  parsers := List.replicate Config.nStreams Parser.initial
  refusalMark := false
  out := Output.none
  pending := []

end Sys2Proof.Machine
end

