-- ==== Sys2Proof/Machine/Flags.lean ====
section
/-! DEFINITION. The block has no condition codes (spec/10_state.md R29). This file holds what plays their part: the
checksum accumulator (spec/00_scope.md R12, spec/40_codec.md R95), and the numeric codes of phases, events and
exceptional outcomes (R21, R29, R160), which no rule computes with (D3, D7, D8). -/

namespace Sys2Proof.Machine

/-- `sum8(s)`: the bytes added up in an 8-bit accumulator, first byte first (R12, R98). -/
def sum8 (s : List Byte) : Byte := s.foldl (fun acc b => acc + b) 0x00#8

/-- The checksum byte of a span: `0xFF - sum8(s)` (R93, R95). -/
def checksum (s : List Byte) : Byte := 0xFF#8 - sum8 s

/-- The 2-bit code of a phase (R21, D3). -/
def phaseCode : Phase → BitVec 2
  | .seekHeader => 0
  | .expectLengthHigh => 1
  | .readLengthLow => 2
  | .collect => 3

/-- The 3-bit event code (R29, D8). -/
def eventCode : Event → BitVec 3
  | .discard => 0
  | .header => 1
  | .lenHi => 2
  | .resync => 3
  | .lenLo => 4
  | .payload => 5
  | .frameOk => 6
  | .frameBad => 7

/-- The code column of R160; the refusals have none (D7). -/
def exceptionalCode : Exceptional → Option Nat
  | .cmdNameLength _ => some 1
  | .pinRange _ => some 2
  | .stateDestroyed _ _ => some 3
  | .reservedEncoding _ => none
  | .noSuchInstance _ => none

end Sys2Proof.Machine
end

