-- ==== Sys2Proof/Machine/Operands.lean ====
section
/-! DEFINITION. Operand forms of the codec: the defaults of absent operands (spec/40_codec.md R91), the pin operand
(R96, R97, spec/30_encoding.md R67) and the on/off operand (R68, R70). -/

namespace Sys2Proof.Machine

/-- `fid` of R90: an absent frame_id is 0x00 (R91). -/
def frameIdOf (t : Target) : Byte := t.frameId.getD Config.frameIdDefault

/-- `addr` of R90: an absent address is broadcast (R91, R64). -/
def addressOf (t : Target) : Address := t.address.getD Config.broadcastAddr

/-- `net` of R90: an absent network address is broadcast (R91, R64). -/
def networkOf (t : Target) : NetAddress := t.network.getD Config.broadcastNet

/-- The pins the convenience constructors admit: 0..7 (R9, R96, R97, D9). -/
def pinAdmitted (pin : Byte) : Bool := pin ≤ 7#8

/-- `"D"` and the pin's digit, two ASCII bytes (R67). -/
def pinName (pin : Byte) : List Byte := [0x44#8, 0x30#8 + pin]

/-- The data byte of `on` (any byte but 0) and of off (R68, R70, R96). -/
def digitalData (on : Byte) : Byte := if on != 0x00#8 then Config.digitalHigh else Config.digitalLow

end Sys2Proof.Machine
end

