-- ==== Sys2Proof/Machine/Ops.lean ====
section
/-! DEFINITION. The operations the meanings share: reaching an instance, raising an exceptional outcome (ONE operation, from
the table of spec/60_exceptions.md R160), answering a request, the return to SeekHeader (spec/41_parser.md R136), the
payload's append and read (spec/20_memory.md R41), and a hardware reset (spec/70_reset_and_hazards.md R180, R182). -/

namespace Sys2Proof.Machine

/-! ### Instances (R173) -/

/-- The registers of instance `inst`; none where `inst ≥ N_STREAMS`. -/
def State.parser? (s : State) (inst : Byte) : Option Parser := s.parsers[inst.toNat]?

/-- Write the registers of instance `inst`, and of no other. -/
def State.setParser (s : State) (inst : Byte) (p : Parser) : State :=
  { s with parsers := s.parsers.set inst.toNat p }

/-! ### Outputs (R29, R166) -/

/-- Drive nothing: RESET and CLOSE have no output (R120, R121, R122), and a step that serves no request has none. -/
def State.quiet (s : State) : State := { s with out := Output.none }

/-- Answer the requester. -/
def State.answer (r : Reply) (s : State) : State := { s with out := ⟨none, none, some r⟩ }

/-! ### Exceptional outcomes -/

/-- `fault <- STATE_DESTROYED` in instance `inst` (R161). -/
def State.recordFault (s : State) (inst : Byte) : State :=
  match s.parser? inst with
  | none => s
  | some p => s.setParser inst { p with fault := some .stateDestroyed }

/-- Take an exceptional outcome: report it with its recorded value in the same step, and make the one state change its
row of R160 has. There is no trap entry: nothing is saved and control goes nowhere (R168); and no return (R169). -/
def State.raise (e : Exceptional) (s : State) : State :=
  let s := s.answer (.raised e)
  match e with
  | .cmdNameLength _ => s
  | .pinRange _ => s
  | .stateDestroyed inst _ => s.recordFault inst
  | .reservedEncoding _ => { s with refusalMark := true }
  | .noSuchInstance _ => { s with refusalMark := true }

/-- The instance a parser operation names, or the refusal of one that does not exist (R71; check 2 of R167). -/
def existing (inst : Byte) (s : State) : Except Exceptional Parser :=
  match s.parser? inst with
  | none => .error (.noSuchInstance inst)
  | some p => .ok p

/-- A fault is recorded: the instance takes no further step (R120, R161, R169; log entry 8). -/
def Parser.faulted (p : Parser) : Bool := p.fault.isSome

/-- The instance takes byte steps: it is open (R123) and has no fault recorded. -/
def Parser.live (p : Parser) : Bool := p.isOpen && !p.faulted

/-- The instance a FEED_BYTE names, or the exceptional outcome of a missing or destroyed one (checks 2 and 3 of R167). -/
def feedable (inst b : Byte) (s : State) : Except Exceptional Parser :=
  match s.parser? inst with
  | none => .error (.noSuchInstance inst)
  | some p => if p.live then .ok p else .error (.stateDestroyed inst b)

/-! ### The payload buffer (R41) -/

/-- `MemWrite(payload, plen, 1, b); plen <- plen + 1`. -/
def payloadAppend (payload : List Byte) (b : Byte) : List Byte := payload ++ [b]

/-- `MemRead(payload, i, 1)`; none at an index ≥ plen, which is not architectural (R24). -/
def payloadRead (payload : List Byte) (i : Nat) : Option Byte := payload[i]?

/-! ### A parser step -/

/-- The outcome of one consumed byte: the registers after it, its event, and the payload it emits, if any (R29, R120). -/
structure ParserStep where
  parser : Parser
  event : Event
  emitted : Option (List Byte)
  deriving DecidableEq, Repr

/-- Write a parser step's registers into its instance and drive its outputs. -/
def State.commit (s : State) (inst : Byte) (r : ParserStep) : State :=
  { s.setParser inst r.parser with out := ⟨some r.event, r.emitted, none⟩ }

/-- `to_seek()` (R136). -/
def Parser.toSeek (p : Parser) : Parser :=
  { p with phase := .seekHeader, remainingLength := 0x00#8, runningChecksum := 0x00#8, payload := [] }

/-- (Re)create an instance: the register writes of R121. A recorded fault is not written (R26). -/
def Parser.recreate (p : Parser) : Parser := { p.toSeek with isOpen := true }

/-! ### RESET and CLOSE -/

/-- A lifecycle operation of instance `inst`: its register write, with no output (R120). An instance that does not exist is
refused (R71); one with a fault recorded takes no step, so none of its registers is written (R169; log entry 8). -/
def State.lifecycle (inst : Byte) (write : Parser → Parser) (s : State) : State :=
  match existing inst s with
  | .error e => s.raise e
  | .ok p => if p.faulted then s.quiet else (s.setParser inst (write p)).quiet

/-! ### Hardware reset -/

/-- A hardware reset: every instance as after RESET, no output driven; a recorded fault survives (R180, R182) and so does
the refusal mark (R163). Log entry 15. -/
def State.hardwareReset (s : State) : State :=
  { s.quiet with parsers := s.parsers.map Parser.recreate }

end Sys2Proof.Machine
end

