-- ==== Sys2Proof/Machine/Codec.lean ====
section
/-! DEFINITION. The frame codec: COMPOSE, CHECKSUM_OF and the convenience constructors (spec/40_codec.md R90 to R97), and
the law-level inverse of serialisation (R100). -/

namespace Sys2Proof.Machine

/-- The covered bytes `p` of R90: api_identifier through cmd_data (R16, R61). -/
def composedPayload (options : Byte) (t : Target) (name : List Byte) (data : Byte) : List Byte :=
  [Config.apiIdRemoteAt, frameIdOf t] ++ be 8 (addressOf t) ++ be 2 (networkOf t) ++ [options] ++ name ++ [data]

/-- COMPOSE: the 20-byte frame of R61, or the contract violation of a name that is not 2 bytes long (R90 to R94). -/
def compose (options : Byte) (t : Target) (name : List Byte) (data : Byte) : Except Exceptional (List Byte) :=
  if name.length = 2 then
    let p := composedPayload options t name data
    .ok ([Config.header] ++ be 2 Config.lenRemoteAt ++ p ++ [checksum p])
  else .error (.cmdNameLength name.length)

/-- COMPOSE as the convenience constructors call it: PIN_RANGE, then options apply_changes and name "D" + digit (R96, R97). -/
def composeForPin (pin : Byte) (t : Target) (data : Byte) : Except Exceptional (List Byte) :=
  if pinAdmitted pin then compose Config.optApplyChanges t (pinName pin) data
  else .error (.pinRange pin)

/-- Answer with a composed frame, or take the contract violation. -/
def State.answerFrame (r : Except Exceptional (List Byte)) (s : State) : State :=
  match r with
  | .ok f => s.answer (.frame f)
  | .error e => s.raise e

/-- COMPOSE (R90). -/
def execCompose (options : Byte) (t : Target) (name : List Byte) (data : Byte) (s : State) :
    Host.Outcome State Fault Refusal :=
  .next (s.answerFrame (compose options t name data))

/-- CHECKSUM_OF (R95). -/
def execChecksumOf (span : List Byte) (s : State) : Host.Outcome State Fault Refusal :=
  .next (s.answer (.checksum (checksum span)))

/-- BUILD_DIGITAL_OUTPUT (R96). -/
def execBuildDigitalOutput (pin on : Byte) (t : Target) (s : State) : Host.Outcome State Fault Refusal :=
  .next (s.answerFrame (composeForPin pin t (digitalData on)))

/-- BUILD_PIN_CONFIG (R97). -/
def execBuildPinConfig (pin config : Byte) (t : Target) (s : State) : Host.Outcome State Fault Refusal :=
  .next (s.answerFrame (composeForPin pin t config))

/-- The operand values a composed frame carries. -/
structure FrameFields where
  frameId : Byte
  address : Address
  network : NetAddress
  options : Byte
  name : List Byte
  data : Byte
  deriving DecidableEq, Repr

/-- The "deserialize" half of R100: the operand values read back from the 20 bytes; a law, not an operation of the block. -/
def frameFields (f : List Byte) : FrameFields where
  frameId := f.getD 4 0x00#8
  address := BitVec.ofNat 64 (ofBE ((f.drop 5).take 8))
  network := BitVec.ofNat 16 (ofBE ((f.drop 13).take 2))
  options := f.getD 15 0x00#8
  name := (f.drop 16).take 2
  data := f.getD 18 0x00#8

end Sys2Proof.Machine
end

