-- ==== Sys2Proof/Machine/Lifecycle.lean ====
section
/-! DEFINITION. RESET and CLOSE (spec/41_parser.md R121, R122), and the reserved requests (spec/30_encoding.md R71). -/

namespace Sys2Proof.Machine

/-- RESET (re)creates instance `inst` in its initial state, whatever it was doing; no output (R121). -/
def execReset (inst : Byte) (s : State) : Host.Outcome State Fault Refusal :=
  .next (s.lifecycle inst Parser.recreate)

/-- CLOSE destroys instance `inst`: only `open` is written; no output (R122). -/
def execClose (inst : Byte) (s : State) : Host.Outcome State Fault Refusal :=
  .next (s.lifecycle inst fun p => { p with isOpen := false })

/-- A reserved header is refused: RESERVED_ENCODING is reported and marked, nothing else changes (R71, R163). -/
def execReserved (header : Byte) (s : State) : Host.Outcome State Fault Refusal :=
  .next (s.raise (.reservedEncoding header))

end Sys2Proof.Machine
end

