-- ==== Sys2Proof/Machine/Parsing.lean ====
section
/-! DEFINITION. FEED_BYTE (spec/41_parser.md R123), the eight rows of the byte decode table (R124 to R131), and the
pseudo-operation `feed` (R134, spec/30_encoding.md R76). -/

namespace Sys2Proof.Machine

/-! ### The rows -/

/-- R124. -/
def rowSeekHeaderHeader (p : Parser) : ParserStep :=
  ⟨{ p with phase := .expectLengthHigh }, .header, none⟩

/-- R125: the byte is discarded. -/
def rowSeekHeaderDiscard (p : Parser) : ParserStep :=
  ⟨p, .discard, none⟩

/-- R126. -/
def rowExpectLengthHighZero (p : Parser) : ParserStep :=
  ⟨{ p with phase := .readLengthLow }, .lenHi, none⟩

/-- R127: the byte is consumed and not looked at again, even when it is 0x7E (D5; log entry 13). -/
def rowExpectLengthHighResync (p : Parser) : ParserStep :=
  ⟨p.toSeek, .resync, none⟩

/-- R128. -/
def rowReadLengthLowLength (p : Parser) (b : Byte) : ParserStep :=
  ⟨{ p with phase := .collect, remainingLength := b, runningChecksum := 0x00#8, payload := [] }, .lenLo, none⟩

/-- R129. -/
def rowCollectPayload (p : Parser) (b : Byte) : ParserStep :=
  ⟨{ p with
      payload := payloadAppend p.payload b
      runningChecksum := p.runningChecksum + b
      remainingLength := p.remainingLength - 0x01#8 }, .payload, none⟩

/-- R130: the payload is read whole before `to_seek()` clears it. -/
def rowCollectFrameOk (p : Parser) : ParserStep :=
  ⟨p.toSeek, .frameOk, some p.payload⟩

/-- R131: the frame is dropped. -/
def rowCollectFrameBad (p : Parser) : ParserStep :=
  ⟨p.toSeek, .frameBad, none⟩

/-! ### FEED_BYTE -/

/-- The `case phase of` of R123. -/
def consume (p : Parser) (b : Byte) : ParserStep :=
  match p.phase with
  | .seekHeader => if b == Config.header then rowSeekHeaderHeader p else rowSeekHeaderDiscard p
  | .expectLengthHigh =>
    if b == Config.lenHiRequired then rowExpectLengthHighZero p else rowExpectLengthHighResync p
  | .readLengthLow => rowReadLengthLowLength p b
  | .collect =>
    if p.remainingLength != 0x00#8 then rowCollectPayload p b
    else if checksumMatches p.runningChecksum b then rowCollectFrameOk p
    else rowCollectFrameBad p

/-- FEED_BYTE as a function: a missing or destroyed instance takes its exceptional outcome, any other consumes the byte. -/
def feedByte (inst b : Byte) (s : State) : State :=
  match feedable inst b s with
  | .error e => s.raise e
  | .ok p => s.commit inst (consume p b)

/-- FEED_BYTE (R123). -/
def execFeedByte (inst b : Byte) (s : State) : Host.Outcome State Fault Refusal :=
  .next (feedByte inst b s)

/-! ### The rows, each as an operation of its own: the FEED_BYTE of byte `b` on `inst` where the table selects the row -/

/-- Run a row on instance `inst`, with FEED_BYTE's checks; where the registers select another row there is no transition
(log entry 10). -/
def runRow (inst b : Byte) (selected : Parser → Bool) (row : Parser → ParserStep) (s : State) :
    Host.Outcome State Fault Refusal :=
  match feedable inst b s with
  | .error e => .next (s.raise e)
  | .ok p => if selected p then .next (s.commit inst (row p)) else .fault (.rowNotSelected p.phase)

/-- SeekHeader/header (R124). -/
def execSeekHeaderHeader (inst : Byte) (s : State) : Host.Outcome State Fault Refusal :=
  runRow inst Config.header (fun p => p.phase == .seekHeader) rowSeekHeaderHeader s

/-- SeekHeader/discard (R125). -/
def execSeekHeaderDiscard (inst b : Byte) (s : State) : Host.Outcome State Fault Refusal :=
  runRow inst b (fun p => p.phase == .seekHeader && b != Config.header) rowSeekHeaderDiscard s

/-- ExpectLengthHigh/zero (R126). -/
def execExpectLengthHighZero (inst : Byte) (s : State) : Host.Outcome State Fault Refusal :=
  runRow inst Config.lenHiRequired (fun p => p.phase == .expectLengthHigh) rowExpectLengthHighZero s

/-- ExpectLengthHigh/resync (R127). -/
def execExpectLengthHighResync (inst b : Byte) (s : State) : Host.Outcome State Fault Refusal :=
  runRow inst b (fun p => p.phase == .expectLengthHigh && b != Config.lenHiRequired) rowExpectLengthHighResync s

/-- ReadLengthLow/length (R128). -/
def execReadLengthLowLength (inst b : Byte) (s : State) : Host.Outcome State Fault Refusal :=
  runRow inst b (fun p => p.phase == .readLengthLow) (fun p => rowReadLengthLowLength p b) s

/-- Collect/payload (R129). -/
def execCollectPayload (inst b : Byte) (s : State) : Host.Outcome State Fault Refusal :=
  runRow inst b (fun p => p.phase == .collect && p.remainingLength != 0x00#8) (fun p => rowCollectPayload p b) s

/-- Collect/frame_ok (R130). -/
def execCollectFrameOk (inst b : Byte) (s : State) : Host.Outcome State Fault Refusal :=
  runRow inst b
    (fun p => p.phase == .collect && p.remainingLength == 0x00#8 && checksumMatches p.runningChecksum b) rowCollectFrameOk s

/-- Collect/frame_bad (R131). -/
def execCollectFrameBad (inst b : Byte) (s : State) : Host.Outcome State Fault Refusal :=
  runRow inst b
    (fun p => p.phase == .collect && p.remainingLength == 0x00#8 && !checksumMatches p.runningChecksum b) rowCollectFrameBad s

/-! ### The pseudo-operation `feed` -/

/-- The FEED_BYTE operations a `feed` expands to (R76). -/
def expandFeed (inst : Byte) (bs : List Byte) : List Instr := bs.map (Instr.feedByte inst)

/-- `feed` (R134): one FEED_BYTE per byte, in order, with the payloads emitted, in order. A step that ends in an
exceptional outcome ends the feed: the bytes after it are not consumed. An empty feed is no step (D16). -/
def feed (inst : Byte) : List Byte → State → State × List (List Byte)
  | [], s => (s, [])
  | b :: bs, s =>
    let s1 := feedByte inst b s
    if s1.out.reply.isSome then (s1, [])
    else
      let r := feed inst bs s1
      (r.1, s1.out.frame.toList ++ r.2)

/-- The outputs of the same steps, in order: what an observer of the event and frame outputs sees (R29). -/
def feedOutputs (inst : Byte) : List Byte → State → List Output
  | [], _ => []
  | b :: bs, s =>
    let s1 := feedByte inst b s
    if s1.out.reply.isSome then [s1.out] else s1.out :: feedOutputs inst bs s1

end Sys2Proof.Machine
end

