-- ==== Sys2Proof/Machine/Dispatch.lean ====
section
/-! DEFINITION. One arm per operation of spec/opcode_table.json. -/

namespace Sys2Proof.Machine

def exec (i : Instr) (s : State) : Host.Outcome State Fault Refusal :=
  match i with
  | .reset inst => Sys2Proof.Machine.execReset inst s
  | .close inst => Sys2Proof.Machine.execClose inst s
  | .feedByte inst b => Sys2Proof.Machine.execFeedByte inst b s
  | .compose options target name data => Sys2Proof.Machine.execCompose options target name data s
  | .checksumOf span => Sys2Proof.Machine.execChecksumOf span s
  | .buildDigitalOutput pin on target => Sys2Proof.Machine.execBuildDigitalOutput pin on target s
  | .buildPinConfig pin config target => Sys2Proof.Machine.execBuildPinConfig pin config target s
  | .reserved header => Sys2Proof.Machine.execReserved header s
  | .seekHeaderHeader inst => Sys2Proof.Machine.execSeekHeaderHeader inst s
  | .seekHeaderDiscard inst b => Sys2Proof.Machine.execSeekHeaderDiscard inst b s
  | .expectLengthHighZero inst => Sys2Proof.Machine.execExpectLengthHighZero inst s
  | .expectLengthHighResync inst b => Sys2Proof.Machine.execExpectLengthHighResync inst b s
  | .readLengthLowLength inst b => Sys2Proof.Machine.execReadLengthLowLength inst b s
  | .collectPayload inst b => Sys2Proof.Machine.execCollectPayload inst b s
  | .collectFrameOk inst b => Sys2Proof.Machine.execCollectFrameOk inst b s
  | .collectFrameBad inst b => Sys2Proof.Machine.execCollectFrameBad inst b s

end Sys2Proof.Machine
end

