-- ==== Sys2Proof/Machine/Step.lean ====
section
/-! DEFINITION. One step of the block: it serves what its surroundings present next (spec/00_scope.md R14, D2). There is no
program counter and no fetch from memory (spec/10_state.md R28, spec/20_memory.md R53). -/

namespace Sys2Proof.Machine

/-- One step. Nothing presented: no register changes (R171, R189; log entry 3). A hardware reset: R180. A request is taken
off, decoded and executed; bytes that are no request of the format are refused (log entry 9). -/
def step (s : State) : Host.Outcome State Fault Refusal :=
  match s.pending with
  | [] => .next s.quiet
  | .hardwareReset :: rest => .next { s with pending := rest }.hardwareReset
  | .request bs :: rest =>
    match decode bs with
    | .ok i => exec i { s with pending := rest }
    | .error e => .refused (.malformedRequest e)

/-- `s` with the request of a table word presented next (log entries 2 and 11). -/
def State.withFetchWord (s : State) (nbits w : Nat) : State :=
  { s with pending := .request (requestOfWord nbits w) :: s.pending }

end Sys2Proof.Machine
end

