-- ==== Sys2Proof/Safety.lean ====
section
/-! DEFINITION. What claims about a run speak of: the register invariant (spec/10_state.md R32), runs, final and clean
states (R26, spec/60_exceptions.md R161, R163), and the frame envelope on the wire (spec/30_encoding.md R60). -/

namespace Sys2Proof.Machine

/-- R32, for one instance: outside Collect the three frame registers hold their reset values; in Collect the accumulator
is the sum of the payload, and payload and remaining length together fit in `PAYLOAD_MAX`. -/
def Parser.Inv (p : Parser) : Prop :=
  if p.phase = .collect then
    p.runningChecksum = sum8 p.payload ∧ p.payload.length + p.remainingLength.toNat ≤ Config.payloadMax
  else p.remainingLength = 0x00#8 ∧ p.runningChecksum = 0x00#8 ∧ p.payload = []

/-- R32 for every instance. -/
def State.Inv (s : State) : Prop := ∀ p ∈ s.parsers, p.Inv

/-- A state some run reaches: after reset any inputs may be presented, and then steps are taken. -/
inductive Reachable : State → Prop where
  | reset (inputs : List Input) : Reachable { State.reset with pending := inputs }
  | step {s t : State} : Reachable s → Machine.step s = .next t → Reachable t

/-- A state that can end a run: no instance has a fault recorded (R26, R161). -/
def State.Final (s : State) : Prop := ∀ p ∈ s.parsers, p.fault = none

/-- A run that got here had no fault and no refusal (R161, R163). -/
def State.Clean (s : State) : Prop := s.Final ∧ s.refusalMark = false

/-- Instance `inst` exists and takes byte steps, with registers `p`. -/
def State.Live (s : State) (inst : Byte) (p : Parser) : Prop :=
  s.parser? inst = some p ∧ p.isOpen = true ∧ p.fault = none

/-- The frame on the wire that carries a payload of at most 255 bytes: marker, length, payload, checksum (R60). -/
def envelope (payload : List Byte) : List Byte :=
  [0x7E#8, 0x00#8, BitVec.ofNat 8 payload.length] ++ payload ++ [checksum payload]

end Sys2Proof.Machine
end

