-- ==== Sys2Proof/WellFormed.lean ====
section
/-! DEFINITION. Which operations a requester can spell: the width of name_len and span_len (spec/30_encoding.md R70), the
header bytes that are reserved (R71), the byte matches of the byte decode table (R72). -/

namespace Sys2Proof

/-- The operation has an encoding that spells it. A wrong-length name or a pin above 7 is well formed: the block answers
it with a contract violation (R94, R96, R97). -/
def Instr.wellFormed : Instr → Bool
  | .reset _ => true
  | .close _ => true
  | .feedByte _ _ => true
  | .compose _ _ name _ => decide (name.length < 2 ^ 8)
  | .checksumOf span => decide (span.length < 2 ^ 32)
  | .buildDigitalOutput _ _ _ => true
  | .buildPinConfig _ _ _ => true
  | .reserved h => isReservedHeader h
  | .seekHeaderHeader _ => true
  | .seekHeaderDiscard _ b => b != Config.header
  | .expectLengthHighZero _ => true
  | .expectLengthHighResync _ b => b != Config.lenHiRequired
  | .readLengthLowLength _ _ => true
  | .collectPayload _ _ => true
  | .collectFrameOk _ _ => true
  | .collectFrameBad _ _ => true

/-- For a row of the byte decode table, the instance and the byte it stands for; none for an operation request. -/
def Instr.carriedByte : Instr → Option (Byte × Byte)
  | .reset _ => none
  | .close _ => none
  | .feedByte _ _ => none
  | .compose _ _ _ _ => none
  | .checksumOf _ => none
  | .buildDigitalOutput _ _ _ => none
  | .buildPinConfig _ _ _ => none
  | .reserved _ => none
  | .seekHeaderHeader inst => some (inst, Config.header)
  | .seekHeaderDiscard inst b => some (inst, b)
  | .expectLengthHighZero inst => some (inst, Config.lenHiRequired)
  | .expectLengthHighResync inst b => some (inst, b)
  | .readLengthLowLength inst b => some (inst, b)
  | .collectPayload inst b => some (inst, b)
  | .collectFrameOk inst b => some (inst, b)
  | .collectFrameBad inst b => some (inst, b)

/-- An operation request, not a row of the byte decode table. -/
def Instr.isRequest (i : Instr) : Bool := i.carriedByte.isNone

end Sys2Proof
end

