-- ==== Sys2Proof/Certificates/Slice0/Obligations.lean ====
section
/-! DEFINITION. The statements about the model. -/

open Sys2Proof Sys2Proof.Machine

/-! ### Reset, steps, runs -/

/-- After reset every instance 0 .. N_STREAMS-1 is open and initial, and nothing is driven. The phase is the source's;
the other values are the spec's decisions D6 and D7, and N_STREAMS is a free value ≥ 1 (D12, log 4). -/
def Obligations.ResetStateIsInitial : Prop :=
  State.reset.parsers.length = Config.nStreams ∧ 1 ≤ Config.nStreams ∧
  (∀ inst : Byte, inst.toNat < Config.nStreams →
    State.reset.parser? inst = some
      { phase := .seekHeader, remainingLength := 0x00#8, runningChecksum := 0x00#8, payload := [],
        isOpen := true, fault := none }) ∧
  State.reset.out.event = none ∧ State.reset.out.frame = none ∧ State.reset.out.reply = none

/-- A step serves the request presented next: it runs the decoded operation on the state with that request taken off. -/
def Obligations.StepRunsTheDecodedRequest : Prop :=
  ∀ (s : State) (bs : List Byte) (rest : List Input) (i : Instr),
    s.pending = .request bs :: rest → decode bs = .ok i → step s = exec i { s with pending := rest }

/-- A block that is presented nothing stays as it is: no register changes, nothing is driven, and it is no fault
(decision D19; log 3). -/
def Obligations.StepWithNothingPresentedChangesNoRegister : Prop :=
  ∀ s : State, s.pending = [] →
    step s = .next { s with out := { event := none, frame := none, reply := none } }

/-- A hardware reset puts every instance in its initial state, keeps a recorded fault and the refusal mark, and drives
nothing. Its being an input, and the kept fault, rest on decisions D6, D7 and log 15. -/
def Obligations.HardwareResetReinitialisesEveryInstance : Prop :=
  ∀ (s : State) (rest : List Input), s.pending = .hardwareReset :: rest →
    ∃ t, step s = .next t ∧ t.pending = rest ∧ t.refusalMark = s.refusalMark ∧
      t.out = { event := none, frame := none, reply := none } ∧
      t.parsers.length = s.parsers.length ∧
      ∀ (inst : Byte) (p : Parser), s.parser? inst = some p → t.parser? inst = some
        { phase := .seekHeader, remainingLength := 0x00#8, runningChecksum := 0x00#8, payload := [],
          isOpen := true, fault := p.fault }

/-- Bytes that are no request of the format stop the machine with a refusal of its own name. The model's choice: log 9. -/
def Obligations.BytesOfNoRequestAreRefusedByName : Prop :=
  ∀ (s : State) (bs : List Byte) (rest : List Input) (e : DecodeError),
    s.pending = .request bs :: rest → decode bs = .error e → step s = .refused (.malformedRequest e)

/-- No step stops with a fault. The model's choice: every exceptional outcome of the block is a next state that reports it
(logs 6, 7 and 18), where the spec counts a fault and a refusal as outcomes of their own. -/
def Obligations.StepNeverStopsWithAFault : Prop :=
  ∀ (s : State) (f : Fault), step s ≠ .fault f

/-- Every request a requester can spell is served: presented next, it is answered with a next state. That a refused request
and a byte for a destroyed instance are answered so is the model's choice (logs 6 and 7), and so is presenting a row of
the byte decode table as the FEED_BYTE of its byte (log 10). -/
def Obligations.EverySpellableRequestIsServed : Prop :=
  ∀ (s : State) (i : Instr) (rest : List Input), i.wellFormed = true → s.pending = .request (encode i) :: rest →
    ∃ t, step s = .next t ∧ t.pending = rest

/-- The register invariant of R32 (all of it but the last clause of its second item, which speaks of the byte that an
earlier step read) is kept by every step. -/
def Obligations.StepKeepsTheRegisterInvariant : Prop :=
  ∀ s t : State, s.Inv → step s = .next t → t.Inv

/-- The state after reset meets the register invariant. -/
def Obligations.ResetMeetsTheRegisterInvariant : Prop := State.reset.Inv

/-- Every state that any sequence of inputs reaches from reset meets the register invariant, has N_STREAMS instances, and
no instance's payload is longer than 255 bytes. -/
def Obligations.ReachableStatesMeetTheRegisterInvariant : Prop :=
  ∀ s : State, Reachable s →
    s.Inv ∧ s.parsers.length = Config.nStreams ∧ ∀ p ∈ s.parsers, p.payload.length ≤ 255

/-- A recorded fault is never cleared, not by RESET and not by any step. The sticky record is decision D7. -/
def Obligations.StepNeverClearsARecordedFault : Prop :=
  ∀ (s t : State) (inst : Byte) (p : Parser) (f : FaultCode),
    step s = .next t → s.parser? inst = some p → p.fault = some f →
    ∃ q, t.parser? inst = some q ∧ q.fault = some f

/-- The refusal mark is kept for the whole run, and no step adds or removes an instance. The mark is decision D4. -/
def Obligations.StepKeepsTheRefusalMarkAndTheInstances : Prop :=
  ∀ s t : State, step s = .next t →
    (s.refusalMark = true → t.refusalMark = true) ∧ t.parsers.length = s.parsers.length

/-- A run that has seen a fault or a refusal never looks clean again: a clean state is only reached from a clean one.
The sticky record is decision D7 and the mark decision D4. -/
def Obligations.OnlyACleanStateLeadsToACleanState : Prop :=
  ∀ s t : State, step s = .next t → t.Clean → s.Clean

/-- Every exceptional outcome is precise: all registers are as before the request, but for the fault record of
STATE_DESTROYED, and the refusal mark is written by a refusal only. The outcomes are decisions D4 and D7; that they are next states is logs 6, 7 and 18. -/
def Obligations.ExceptionalOutcomesArePrecise : Prop :=
  ∀ (i : Instr) (s t : State) (e : Exceptional), exec i s = .next t → t.out.reply = some (.raised e) →
    t.pending = s.pending ∧ t.out.event = none ∧ t.out.frame = none ∧
    (t.refusalMark = (s.refusalMark || (exceptionalCode e).isNone)) ∧
    ((∀ inst b, e ≠ .stateDestroyed inst b) → t.parsers = s.parsers) ∧
    (∀ inst b, e = .stateDestroyed inst b →
      (∀ k : Byte, k ≠ inst → t.parser? k = s.parser? k) ∧
      ∃ p, s.parser? inst = some p ∧ t.parser? inst = some { p with fault := some .stateDestroyed })

/-! ### Encodings -/

/-- Requests written out from the spec's request format decode to the operations they stand for (vectors V-R1 to V-R10 of
spec/95_test_vectors.md and the first request of its program 4). The format is decision D4. -/
def Obligations.RequestsDecodeAsTheSpecWritesThem : Prop :=
  decode [0x00#8, 0x00#8] = .ok (.reset 0) ∧
  decode [0x01#8, 0x00#8] = .ok (.close 0) ∧
  decode [0x02#8, 0x00#8, 0x7E#8] = .ok (.feedByte 0 0x7E#8) ∧
  decode [0x03#8, 0x02#8, 0x02#8, 0x44#8, 0x30#8, 0x05#8] = .ok (.compose 0x02#8 ⟨none, none, none⟩ [0x44#8, 0x30#8] 0x05#8) ∧
  decode [0x04#8, 0x00#8, 0x00#8, 0x00#8, 0x01#8, 0x17#8] = .ok (.checksumOf [0x17#8]) ∧
  decode [0x05#8, 0x03#8, 0x01#8] = .ok (.buildDigitalOutput 3 1 ⟨none, none, none⟩) ∧
  decode [0x06#8, 0x07#8, 0x04#8] = .ok (.buildPinConfig 7 4 ⟨none, none, none⟩) ∧
  decode [0x07#8] = .ok (.reserved 0x07#8) ∧
  decode [0x0A#8, 0x00#8, 0x7E#8] = .ok (.reserved 0x0A#8) ∧
  decode [0x43#8] = .ok (.reserved 0x43#8) ∧
  decode [0x3D#8, 0x03#8, 0x01#8, 0x01#8, 0x00#8, 0x13#8, 0xA2#8, 0x00#8, 0x40#8, 0xA1#8, 0xB2#8, 0xC3#8, 0x12#8, 0x34#8] =
    .ok (.buildDigitalOutput 3 1 ⟨some 0x01#8, some 0x0013A20040A1B2C3#64, some 0x1234#16⟩)

/-- Every well-formed operation request decodes from its encoding to itself, with every operand at every value; a
byte-decode row is presented as the FEED_BYTE of the byte it stands for. -/
def Obligations.DecodeReadsBackEveryEncodedRequest : Prop :=
  ∀ i : Instr, i.wellFormed = true →
    (i.isRequest = true → decode (encode i) = .ok i) ∧
    (∀ inst b, i.carriedByte = some (inst, b) → decode (encode i) = .ok (.feedByte inst b))

/-- Bytes that decode to an operation other than a reserved request are that operation's encoding, so each has one
spelling, and what is decoded is always a well-formed request. -/
def Obligations.EveryDecodedRequestHasOneSpelling : Prop :=
  ∀ (bs : List Byte) (i : Instr), decode bs = .ok i →
    i.wellFormed = true ∧ i.isRequest = true ∧ ((∀ h, i ≠ .reserved h) → encode i = bs)

/-- Which header bytes are reserved, in numbers: op = 111, a bit of req[7:6], or a presence bit where the operation takes
none; such a header is refused whatever follows it, and no other header is. Decision D4. -/
def Obligations.ReservedHeadersAreExactlyThese : Prop :=
  ∀ (h : Byte) (body : List Byte),
    let reserved := h.toNat % 8 = 7 ∨ 64 ≤ h.toNat ∨
      ((h.toNat % 8 = 0 ∨ h.toNat % 8 = 1 ∨ h.toNat % 8 = 2 ∨ h.toNat % 8 = 4) ∧ h.toNat / 8 % 8 ≠ 0)
    (reserved → decode (h :: body) = .ok (.reserved h)) ∧
    (¬ reserved → ∀ k, decode (h :: body) ≠ .ok (.reserved k))

/-- A reserved request changes nothing but the refusal mark, and reports its header byte. Decision D4; that the machine
goes on is log 6. -/
def Obligations.ReservedRequestIsRefused : Prop :=
  ∀ (h : Byte) (s : State), exec (.reserved h) s = .next
    { s with refusalMark := true,
             out := { event := none, frame := none, reply := some (.raised (.reservedEncoding h)) } }

/-- RESET, CLOSE and FEED_BYTE, and every row of the byte decode table, of an instance that does not exist change nothing
but the refusal mark, and report the instance. Decision D4; that the machine goes on is log 6. -/
def Obligations.MissingInstanceIsRefused : Prop :=
  ∀ (inst : Byte) (s : State) (i : Instr), s.parsers.length ≤ inst.toNat →
    (i = .reset inst ∨ i = .close inst ∨ (∃ b, i = .feedByte inst b) ∨ (∃ b, i.carriedByte = some (inst, b))) →
    exec i s = .next
      { s with refusalMark := true,
               out := { event := none, frame := none, reply := some (.raised (.noSuchInstance inst)) } }

/-- For every phase and every byte exactly one row of the byte decode table applies: FEED_BYTE does what the selected row
does, and every other row of that byte has no transition (a stop of the model's own name: log 10). -/
def Obligations.ByteDecodeTableSelectsExactlyOneRow : Prop :=
  ∀ (s : State) (inst b : Byte) (p : Parser), s.Live inst p →
    let row := decodeByte p.phase p.remainingLength p.runningChecksum inst b
    row.wellFormed = true ∧ row.carriedByte = some (inst, b) ∧
    exec (.feedByte inst b) s = exec row s ∧
    ∀ i : Instr, i.wellFormed = true → i.carriedByte = some (inst, b) → i ≠ row →
      exec i s = .fault (.rowNotSelected p.phase)

/-- A word of the opcode table, presented to the block, is what the next step runs (the model's reading of the words:
logs 2 and 11). For the byte-decode row's word this is in the phase after reset. -/
def Obligations.PresentedTableWordRuns : Prop :=
  ∀ (s : State) (nbits w : Nat) (i : Instr), decodeTableWord nbits w = some i →
    (i.isRequest = true → step (s.withFetchWord nbits w) = exec i s) ∧
    (i.isRequest = false → ∀ p, s.Live 0 p → p.phase = .seekHeader →
      step (s.withFetchWord nbits w) = exec i s)

/-! ### RESET, CLOSE, the destroyed instance -/

/-- RESET of an existing instance, open or closed, in any phase: the initial values, the fault record not written, no
output, and nothing else changes. The values are decision D6. With a fault recorded the instance takes no further step, so
nothing changes: decision D7, and that it is a next state with no output is log 8. -/
def Obligations.ResetRecreatesTheInstance : Prop :=
  ∀ (s : State) (inst : Byte) (p : Parser), s.parser? inst = some p →
    (p.fault = none →
      exec (.reset inst) s = .next
        { s with
          parsers := s.parsers.set inst.toNat
            { phase := .seekHeader, remainingLength := 0x00#8, runningChecksum := 0x00#8, payload := [],
              isOpen := true, fault := none }
          out := { event := none, frame := none, reply := none } }) ∧
    (p.fault = some .stateDestroyed →
      exec (.reset inst) s = .next { s with out := { event := none, frame := none, reply := none } })

/-- CLOSE of an existing instance writes `open` and nothing else, and has no output. Decision D7. With a fault recorded the
instance takes no further step, so nothing changes: decision D7 and log 8. -/
def Obligations.CloseDestroysTheInstance : Prop :=
  ∀ (s : State) (inst : Byte) (p : Parser), s.parser? inst = some p →
    (p.fault = none →
      exec (.close inst) s = .next
        { s with
          parsers := s.parsers.set inst.toNat
            { phase := p.phase, remainingLength := p.remainingLength, runningChecksum := p.runningChecksum,
              payload := p.payload, isOpen := false, fault := none }
          out := { event := none, frame := none, reply := none } }) ∧
    (p.fault = some .stateDestroyed →
      exec (.close inst) s = .next { s with out := { event := none, frame := none, reply := none } })

/-- A byte fed to a closed instance is not consumed: STATE_DESTROYED is recorded and reported with the instance and the
byte, and no other register changes; the same for every row of that byte. Decision D7; that the machine goes on is log 7. -/
def Obligations.FeedingAClosedInstanceRecordsStateDestroyed : Prop :=
  ∀ (s : State) (inst b : Byte) (p : Parser) (i : Instr), s.parser? inst = some p → p.isOpen = false →
    (i = .feedByte inst b ∨ i.carriedByte = some (inst, b)) →
    exec i s = .next
      { s with
        parsers := s.parsers.set inst.toNat
          { phase := p.phase, remainingLength := p.remainingLength, runningChecksum := p.runningChecksum,
            payload := p.payload, isOpen := false, fault := some .stateDestroyed }
        out := { event := none, frame := none, reply := some (.raised (.stateDestroyed inst b)) } }

/-- An instance with a fault recorded takes no byte: all its registers stay as they are, whether it is open or closed, and
STATE_DESTROYED is reported again. The model's reading: log 8. -/
def Obligations.FaultedInstanceTakesNoByte : Prop :=
  ∀ (s : State) (inst b : Byte) (p : Parser), s.parser? inst = some p → p.fault = some .stateDestroyed →
    exec (.feedByte inst b) s = .next
      { s with out := { event := none, frame := none, reply := some (.raised (.stateDestroyed inst b)) } }

/-- After STATE_DESTROYED the instance takes no further step: no operation, RESET and CLOSE among them, changes any of its
registers, and none has an event or a frame for it. Decision D7, read as log 8 says; a hardware reset is no operation (log 15). -/
def Obligations.FaultedInstanceTakesNoFurtherStep : Prop :=
  ∀ (i : Instr) (s t : State) (inst : Byte) (p : Parser) (f : FaultCode),
    exec i s = .next t → s.parser? inst = some p → p.fault = some f →
    t.parser? inst = some p ∧
    ((i = .reset inst ∨ i = .close inst ∨ (∃ b, i = .feedByte inst b) ∨ (∃ b, i.carriedByte = some (inst, b))) →
      t.parsers = s.parsers ∧ t.refusalMark = s.refusalMark ∧ t.out.event = none ∧ t.out.frame = none)

/-! ### FEED_BYTE and the rows of the byte decode table -/

/-- SeekHeader: 0x7E moves on and changes no other register; any other byte is discarded and changes none. -/
def Obligations.SeekHeaderScansForTheMarker : Prop :=
  ∀ (s : State) (inst b : Byte) (p : Parser) (i : Instr), s.Live inst p → p.phase = .seekHeader →
    (b = 0x7E#8 → (i = .feedByte inst b ∨ i = .seekHeaderHeader inst) →
      exec i s = .next
        { s with
          parsers := s.parsers.set inst.toNat { p with phase := .expectLengthHigh }
          out := { event := some .header, frame := none, reply := none } }) ∧
    (b ≠ 0x7E#8 → (i = .feedByte inst b ∨ i = .seekHeaderDiscard inst b) →
      exec i s = .next { s with out := { event := some .discard, frame := none, reply := none } })

/-- ExpectLengthHigh, byte 0x00. -/
def Obligations.ZeroLengthHighByteMovesOn : Prop :=
  ∀ (s : State) (inst : Byte) (p : Parser) (i : Instr), s.Live inst p → p.phase = .expectLengthHigh →
    (i = .feedByte inst 0x00#8 ∨ i = .expectLengthHighZero inst) →
    exec i s = .next
      { s with
        parsers := s.parsers.set inst.toNat { p with phase := .readLengthLow }
        out := { event := some .lenHi, frame := none, reply := none } }

/-- ExpectLengthHigh, any other byte, 0x7E included: back to the initial registers, the byte consumed. That it is not
looked at again is decision D5, and the cleared registers decision D6. -/
def Obligations.NonzeroLengthHighByteResyncs : Prop :=
  ∀ (s : State) (inst b : Byte) (p : Parser) (i : Instr), s.Live inst p → p.phase = .expectLengthHigh → b ≠ 0x00#8 →
    (i = .feedByte inst b ∨ i = .expectLengthHighResync inst b) →
    exec i s = .next
      { s with
        parsers := s.parsers.set inst.toNat
          { p with phase := .seekHeader, remainingLength := 0x00#8, runningChecksum := 0x00#8, payload := [] }
        out := { event := some .resync, frame := none, reply := none } }

/-- ReadLengthLow, any byte: it is the length; it is neither summed nor stored. -/
def Obligations.LengthLowByteStartsCollecting : Prop :=
  ∀ (s : State) (inst b : Byte) (p : Parser) (i : Instr), s.Live inst p → p.phase = .readLengthLow →
    (i = .feedByte inst b ∨ i = .readLengthLowLength inst b) →
    exec i s = .next
      { s with
        parsers := s.parsers.set inst.toNat
          { p with phase := .collect, remainingLength := b, runningChecksum := 0x00#8, payload := [] }
        out := { event := some .lenLo, frame := none, reply := none } }

/-- Collect with bytes remaining, any byte, 0x7E included: appended, added modulo 256, counted down. -/
def Obligations.PayloadByteIsCollectedAndSummed : Prop :=
  ∀ (s : State) (inst b : Byte) (p : Parser) (i : Instr),
    s.Live inst p → p.phase = .collect → 0 < p.remainingLength.toNat →
    (i = .feedByte inst b ∨ i = .collectPayload inst b) →
    ∃ q : Parser,
      exec i s = .next
        { s with
          parsers := s.parsers.set inst.toNat q
          out := { event := some .payload, frame := none, reply := none } } ∧
      q.payload = p.payload ++ [b] ∧
      q.runningChecksum.toNat = (p.runningChecksum.toNat + b.toNat) % 256 ∧
      q.remainingLength.toNat = p.remainingLength.toNat - 1 ∧
      q.phase = .collect ∧ q.isOpen = p.isOpen ∧ q.fault = p.fault

/-- Collect with none remaining, a byte that brings the sum to 0xFF: the payload is emitted whole and the registers go
back to their initial values. The target 0xFF is decision D1, the cleared registers decision D6. -/
def Obligations.ValidChecksumEmitsThePayload : Prop :=
  ∀ (s : State) (inst b : Byte) (p : Parser) (i : Instr), s.Live inst p → p.phase = .collect →
    p.remainingLength = 0x00#8 → (p.runningChecksum.toNat + b.toNat) % 256 = 255 →
    (i = .feedByte inst b ∨ i = .collectFrameOk inst b) →
    exec i s = .next
      { s with
        parsers := s.parsers.set inst.toNat
          { p with phase := .seekHeader, remainingLength := 0x00#8, runningChecksum := 0x00#8, payload := [] }
        out := { event := some .frameOk, frame := some p.payload, reply := none } }

/-- Collect with none remaining, any other byte: nothing is emitted and the registers go back to their initial values.
The target 0xFF is decision D1, the cleared registers decision D6. -/
def Obligations.InvalidChecksumDropsTheFrame : Prop :=
  ∀ (s : State) (inst b : Byte) (p : Parser) (i : Instr), s.Live inst p → p.phase = .collect →
    p.remainingLength = 0x00#8 → (p.runningChecksum.toNat + b.toNat) % 256 ≠ 255 →
    (i = .feedByte inst b ∨ i = .collectFrameBad inst b) →
    exec i s = .next
      { s with
        parsers := s.parsers.set inst.toNat
          { p with phase := .seekHeader, remainingLength := 0x00#8, runningChecksum := 0x00#8, payload := [] }
        out := { event := some .frameBad, frame := none, reply := none } }

/-! ### The codec -/

/-- COMPOSE with a two-byte name answers with the 20 bytes of the remote AT command request frame, fields big-endian,
absent operands at their defaults, and changes nothing else. -/
def Obligations.ComposeAnswersTheRemoteAtFrame : Prop :=
  ∀ (s : State) (o d n0 n1 : Byte) (t : Target),
    let fid : Byte := t.frameId.getD 0x00#8
    let addr : Address := t.address.getD 0x000000000000FFFF#64
    let net : NetAddress := t.network.getD 0xFFFE#16
    let covered : List Byte :=
      [0x17#8, fid,
        addr.extractLsb' 56 8, addr.extractLsb' 48 8, addr.extractLsb' 40 8, addr.extractLsb' 32 8,
        addr.extractLsb' 24 8, addr.extractLsb' 16 8, addr.extractLsb' 8 8, addr.extractLsb' 0 8,
        net.extractLsb' 8 8, net.extractLsb' 0 8, o, n0, n1, d]
    exec (.compose o t [n0, n1] d) s = .next
      { s with out := { event := none, frame := none,
                        reply := some (.frame ([0x7E#8, 0x00#8, 0x10#8] ++ covered ++
                          [BitVec.ofNat 8 (255 - (covered.map BitVec.toNat).sum % 256)])) } }

/-- The checksum byte of every composed frame is 0xFF minus the sum modulo 256 of its bytes 3 to 18, and CHECKSUM_OF of
those 16 bytes answers with it. -/
def Obligations.ComposedFrameEndsWithItsChecksum : Prop :=
  ∀ (s : State) (o d : Byte) (t : Target) (name : List Byte), name.length = 2 →
    ∃ f : List Byte, ∃ c : Byte,
      exec (.compose o t name d) s = .next
        { s with out := { event := none, frame := none, reply := some (.frame f) } } ∧
      f.length = 20 ∧ f[19]? = some c ∧
      c.toNat = 255 - (((f.drop 3).take 16).map BitVec.toNat).sum % 256 ∧
      exec (.checksumOf ((f.drop 3).take 16)) s = .next
        { s with out := { event := none, frame := none, reply := some (.checksum c) } }

/-- A name that is not two bytes long is a contract violation of that call: no frame, nothing written, the length
reported (the recorded value is decision D7 and log 18). -/
def Obligations.WrongLengthNameIsAContractViolation : Prop :=
  ∀ (s : State) (o d : Byte) (t : Target) (name : List Byte), name.length ≠ 2 →
    exec (.compose o t name d) s = .next
      { s with out := { event := none, frame := none, reply := some (.raised (.cmdNameLength name.length)) } }

/-- CHECKSUM_OF answers with 255 minus the sum of the bytes modulo 256, for a span of any length, and the order of the
bytes does not matter. -/
def Obligations.ChecksumOfComplementsTheByteSum : Prop :=
  ∀ (s : State) (span : List Byte),
    (∃ c : Byte, c.toNat = 255 - (span.map BitVec.toNat).sum % 256 ∧
      exec (.checksumOf span) s = .next
        { s with out := { event := none, frame := none, reply := some (.checksum c) } }) ∧
    (∀ other : List Byte, span.Perm other → exec (.checksumOf other) s = exec (.checksumOf span) s)

/-- The checksum law: a byte completes the sum of a span to 0xFF if and only if it is the byte CHECKSUM_OF answers with. -/
def Obligations.ChecksumByteIsTheOnlyOneThatCompletesTheSum : Prop :=
  ∀ (s : State) (span : List Byte) (c : Byte),
    sum8 span + c = 0xFF#8 ↔
      exec (.checksumOf span) s = .next
        { s with out := { event := none, frame := none, reply := some (.checksum c) } }

/-- BUILD_DIGITAL_OUTPUT for an admitted pin answers as COMPOSE does with options 0x02, the pin's name, and data 0x05 for
on and DIGITAL_LOW for off; a pin above 7 is the contract violation PIN_RANGE. Decisions D9, D10 (DIGITAL_LOW is a free
value: log 5) and D11. -/
def Obligations.BuildDigitalOutputComposesThePinFrame : Prop :=
  ∀ (s : State) (pin on : Byte) (t : Target),
    (pin.toNat ≤ 7 →
      ∃ f : List Byte,
        exec (.buildDigitalOutput pin on t) s = .next
          { s with out := { event := none, frame := none, reply := some (.frame f) } } ∧
        f.length = 20 ∧
        exec (.compose 0x02#8 t [0x44#8, BitVec.ofNat 8 (48 + pin.toNat)]
            (if on = 0x00#8 then Config.digitalLow else 0x05#8)) s =
          exec (.buildDigitalOutput pin on t) s) ∧
    (7 < pin.toNat →
      exec (.buildDigitalOutput pin on t) s = .next
        { s with out := { event := none, frame := none, reply := some (.raised (.pinRange pin)) } })

/-- BUILD_PIN_CONFIG for an admitted pin answers as COMPOSE does with options 0x02, the pin's name and the config byte; a
pin above 7 is the contract violation PIN_RANGE; with config 0x05 it answers as BUILD_DIGITAL_OUTPUT on. Decisions D9, D11. -/
def Obligations.BuildPinConfigComposesThePinFrame : Prop :=
  ∀ (s : State) (pin config : Byte) (t : Target),
    (pin.toNat ≤ 7 →
      ∃ f : List Byte,
        exec (.buildPinConfig pin config t) s = .next
          { s with out := { event := none, frame := none, reply := some (.frame f) } } ∧
        f.length = 20 ∧
        exec (.compose 0x02#8 t [0x44#8, BitVec.ofNat 8 (48 + pin.toNat)] config) s =
          exec (.buildPinConfig pin config t) s) ∧
    (7 < pin.toNat →
      exec (.buildPinConfig pin config t) s = .next
        { s with out := { event := none, frame := none, reply := some (.raised (.pinRange pin)) } }) ∧
    (∀ on : Byte, on ≠ 0x00#8 → exec (.buildPinConfig pin 0x05#8 t) s = exec (.buildDigitalOutput pin on t) s)

/-- The 20 bytes of a composed frame determine every operand value used, and reading them back gives those values. -/
def Obligations.ComposedFrameDeterminesItsOperands : Prop :=
  ∀ (s r : State) (o d : Byte) (t : Target) (name f : List Byte),
    exec (.compose o t name d) s = .next r → r.out.reply = some (.frame f) →
    frameFields f =
      { frameId := t.frameId.getD 0x00#8, address := t.address.getD 0x000000000000FFFF#64,
        network := t.network.getD 0xFFFE#16, options := o, name := name, data := d }

/-- The codec's results depend on its operands alone: each codec operation drives outputs that are the same whatever the
state, and changes nothing else. -/
def Obligations.CodecDependsOnItsOperandsAlone : Prop :=
  ∀ i : Instr,
    ((∃ o t n d, i = .compose o t n d) ∨ (∃ sp, i = .checksumOf sp) ∨
      (∃ p on t, i = .buildDigitalOutput p on t) ∨ (∃ p c t, i = .buildPinConfig p c t)) →
    ∃ out : Output, out.event = none ∧ out.frame = none ∧ ∀ s : State, exec i s = .next { s with out := out }

/-! ### Laws of the parser -/

/-- Protocol noise is never an exception: a live instance answers every byte with an ordinary transition, raises nothing,
is live after it, and tells of it only by one event code. -/
def Obligations.NoByteIsAnException : Prop :=
  ∀ (s : State) (inst b : Byte) (p : Parser), s.Live inst p →
    ∃ (t : State) (e : Event) (q : Parser),
      exec (.feedByte inst b) s = .next t ∧ t.out.event = some e ∧ t.out.reply = none ∧
      t.refusalMark = s.refusalMark ∧ t.Live inst q ∧
      (e = .discard ∨ e = .resync ∨ e = .frameBad → t.out.frame = none)

/-- The frame output carries a payload exactly in a step whose event is EV_FRAME_OK, and only a FEED_BYTE or a row of the
byte decode table has an event. The event output is decision D8. -/
def Obligations.FrameOutputExactlyWithFrameOk : Prop :=
  ∀ (i : Instr) (s t : State), exec i s = .next t →
    (t.out.frame.isSome = true ↔ t.out.event = some .frameOk) ∧
    (t.out.event.isSome = true → (∃ inst b, i = .feedByte inst b) ∨ i.isRequest = false)

/-- Emission discipline: what a step emits is the whole collected payload of the instance it feeds, none of it missing,
and the byte fed brings the sum to 0xFF; under the register invariant it is the byte CHECKSUM_OF answers with. Decision D1. -/
def Obligations.OnlyACompleteCheckedPayloadIsEmitted : Prop :=
  ∀ (s t : State) (inst b : Byte) (f : List Byte), s.Inv → exec (.feedByte inst b) s = .next t →
    t.out.frame = some f →
    ∃ p, s.Live inst p ∧ p.phase = .collect ∧ p.remainingLength = 0x00#8 ∧ f = p.payload ∧ f.length ≤ 255 ∧
      sum8 f + b = 0xFF#8 ∧
      exec (.checksumOf f) s = .next { s with out := { event := none, frame := none, reply := some (.checksum b) } }

/-- After a step that completes, drops or resyncs a frame the instance's registers are the initial ones. Decision D6. -/
def Obligations.CompletionDropAndResyncReturnToTheInitialState : Prop :=
  ∀ (s t : State) (inst b : Byte), exec (.feedByte inst b) s = .next t →
    (t.out.event = some .frameOk ∨ t.out.event = some .frameBad ∨ t.out.event = some .resync) →
    t.parser? inst = some
      { phase := .seekHeader, remainingLength := 0x00#8, runningChecksum := 0x00#8, payload := [],
        isOpen := true, fault := none }

/-- An operation changes the registers of no instance but the one it names; a codec operation or a reserved request names
none and changes the registers of none. -/
def Obligations.OnlyTheNamedInstanceChanges : Prop :=
  ∀ (i : Instr) (s t : State) (k : Byte), exec i s = .next t →
    i ≠ .reset k → i ≠ .close k → (∀ b, i ≠ .feedByte k b) → (∀ b, i.carriedByte ≠ some (k, b)) →
    t.parser? k = s.parser? k

/-- Bytes fed to two different instances may be interleaved in any order: the registers and the refusal mark come out the
same, and each byte drives the same outputs. That a byte for a missing or destroyed instance is answered with a next state
is logs 6, 7 and 8. -/
def Obligations.FeedsOfDifferentInstancesCommute : Prop :=
  ∀ (s : State) (i j a b : Byte), i ≠ j →
    ∃ s1 s2 t1 t2 : State,
      exec (.feedByte i a) s = .next s1 ∧ exec (.feedByte j b) s1 = .next s2 ∧
      exec (.feedByte j b) s = .next t1 ∧ exec (.feedByte i a) t1 = .next t2 ∧
      s2.parsers = t2.parsers ∧ s2.refusalMark = t2.refusalMark ∧
      s1.out = t2.out ∧ s2.out = t1.out

/-- Two instances that differ only in the frame registers, in a phase before the length is read, behave alike on every
byte sequence: every step drives the same outputs. -/
def Obligations.HiddenRegistersAreNeverObserved : Prop :=
  ∀ (s : State) (inst : Byte) (p q : Parser) (bs : List Byte),
    s.parser? inst = some p → q.phase = p.phase → q.isOpen = p.isOpen → q.fault = p.fault →
    (p.phase = .seekHeader ∨ p.phase = .expectLengthHigh ∨ p.phase = .readLengthLow) →
    feedOutputs inst bs (s.setParser inst q) = feedOutputs inst bs s

/-- `feed` is its FEED_BYTE requests: presented in order to a block whose instance is live, as many steps as there are
bytes leave the state `feed` gives. -/
def Obligations.FeedIsItsFeedByteRequests : Prop :=
  ∀ (bs : List Byte) (s : State) (inst : Byte) (p : Parser), s.Live inst p → s.pending = [] →
    Host.Core.run Sys2Proof.core bs.length
        { s with pending := (expandFeed inst bs).map (fun i => Input.request (encode i)) } =
      .next (feed inst bs s).1

/-- Fragmentation invariance: a byte sequence fed in two pieces leaves the state and emits the payloads of one feed of the
whole. On an instance that is missing or destroyed both ways leave the same registers and emit nothing. -/
def Obligations.FragmentationDoesNotMatter : Prop :=
  ∀ (s : State) (inst : Byte) (xs ys : List Byte),
    (∀ p, s.Live inst p →
      feed inst (xs ++ ys) s =
        ((feed inst ys (feed inst xs s).1).1, (feed inst xs s).2 ++ (feed inst ys (feed inst xs s).1).2)) ∧
    (feed inst ys (feed inst xs s).1).1.parsers = (feed inst (xs ++ ys) s).1.parsers ∧
    (feed inst ys (feed inst xs s).1).1.refusalMark = (feed inst (xs ++ ys) s).1.refusalMark ∧
    (feed inst (xs ++ ys) s).2 = (feed inst xs s).2 ++ (feed inst ys (feed inst xs s).1).2

/-- A 0x7E followed by any byte but 0x00 leaves a scanning instance in its initial state with both bytes consumed and
nothing emitted. Decision D5. -/
def Obligations.SpuriousMarkerDoesNotReachCollect : Prop :=
  ∀ (s : State) (inst b : Byte) (p : Parser), s.Live inst p → p.phase = .seekHeader → b ≠ 0x00#8 →
    (feedOutputs inst [0x7E#8, b] s).map Output.event = [some .header, some .resync] ∧
    (feed inst [0x7E#8, b] s).2 = [] ∧
    (feed inst [0x7E#8, b] s).1.parser? inst = some
      { phase := .seekHeader, remainingLength := 0x00#8, runningChecksum := 0x00#8, payload := [],
        isOpen := true, fault := none }

/-- A frame of length 0 is `7E 00 00 FF` and emits the empty payload. -/
def Obligations.EmptyFrameIsAccepted : Prop :=
  ∀ (s : State) (inst : Byte) (p : Parser), s.Live inst p → p.phase = .seekHeader →
    (feedOutputs inst [0x7E#8, 0x00#8, 0x00#8, 0xFF#8] s).map Output.event =
      [some .header, some .lenHi, some .lenLo, some .frameOk] ∧
    (feed inst [0x7E#8, 0x00#8, 0x00#8, 0xFF#8] s).2 = [[]]

/-- Every payload of at most 255 bytes, whatever its bytes, comes through: fed its frame, an instance scanning for a
marker emits exactly that payload and ends in its initial state, and no other instance changes. Decision D1. -/
def Obligations.EveryFramedPayloadIsEmitted : Prop :=
  ∀ (s : State) (inst : Byte) (p : Parser) (payload : List Byte),
    s.Live inst p → p.phase = .seekHeader → payload.length ≤ 255 →
    (feed inst (envelope payload) s).2 = [payload] ∧
    (feed inst (envelope payload) s).1.parsers = s.parsers.set inst.toNat
      { phase := .seekHeader, remainingLength := 0x00#8, runningChecksum := 0x00#8, payload := [],
        isOpen := true, fault := none }

/-- Soundness of the parser: from the initial state, whatever bytes came before, a payload emitted at a byte is the
payload of a complete frame of the envelope that ends with that byte. Decision D1. -/
def Obligations.EveryEmittedPayloadWasFramed : Prop :=
  ∀ (s : State) (inst b : Byte) (bs f : List Byte), s.parser? inst = some Parser.initial →
    (feedByte inst b (feed inst bs s).1).out.frame = some f →
    f.length ≤ 255 ∧ ∃ before : List Byte, bs ++ [b] = before ++ envelope f

/-- Round trip: the 20 bytes COMPOSE answers with, fed to an instance scanning for a marker, emit exactly one payload,
the frame's bytes 3 to 18, and leave the instance in its initial state. Decision D1. -/
def Obligations.ComposedFrameRoundTripsThroughTheParser : Prop :=
  ∀ (s r : State) (inst : Byte) (p : Parser) (o d : Byte) (t : Target) (name f : List Byte),
    exec (.compose o t name d) s = .next r → r.out.reply = some (.frame f) →
    s.Live inst p → p.phase = .seekHeader →
    ((feed inst f s).2 = [(f.drop 3).take 16] ∧
      (feed inst f s).1.parsers = s.parsers.set inst.toNat
        { phase := .seekHeader, remainingLength := 0x00#8, runningChecksum := 0x00#8, payload := [],
          isOpen := true, fault := none }) ∧
    (f.drop 3).take 16 =
      [0x17#8, t.frameId.getD 0x00#8] ++ be 8 (t.address.getD (0x000000000000FFFF#64 : Address)) ++
        be 2 (t.network.getD (0xFFFE#16 : NetAddress)) ++ [o] ++ name ++ [d]

/-- A frame with exactly one payload byte changed, or with its checksum byte alone changed, is dropped: nothing is
emitted, the last event is EV_FRAME_BAD, and the instance is in its initial state for the next frame. Decision D1. -/
def Obligations.SingleByteCorruptionIsDropped : Prop :=
  ∀ (s : State) (inst : Byte) (p : Parser) (payload bad : List Byte) (check : Byte),
    s.Live inst p → p.phase = .seekHeader → payload.length ≤ 255 →
    ((∃ k c, k < payload.length ∧ payload[k]? ≠ some c ∧ bad = payload.set k c ∧ check = checksum payload) ∨
      (bad = payload ∧ check ≠ checksum payload)) →
    let frame : List Byte := [0x7E#8, 0x00#8, BitVec.ofNat 8 payload.length] ++ bad ++ [check]
    (feed inst frame s).2 = [] ∧
    ((feedOutputs inst frame s).map Output.event).getLast? = some (some .frameBad) ∧
    (feed inst frame s).1.parsers = s.parsers.set inst.toNat
      { phase := .seekHeader, remainingLength := 0x00#8, runningChecksum := 0x00#8, payload := [],
        isOpen := true, fault := none }
end

