-- ==== Sys2Proof/Laws/Bytes.lean ====
section
/-! SUPPORT. The byte-order helpers: how many bytes `be` gives, and that `ofBE` reads back the number they spell. -/

namespace Sys2Proof

@[simp] theorem be_length (n : Nat) {w : Nat} (v : BitVec w) : (be n v).length = n := by simp [be]

@[simp] theorem ofBE_nil : ofBE [] = 0 := rfl

theorem ofBE_concat (bs : List Byte) (b : Byte) : ofBE (bs ++ [b]) = 256 * ofBE bs + b.toNat := by
  simp [ofBE]

theorem ofBE_lt (bs : List Byte) : ofBE bs < 256 ^ bs.length := by
  induction bs using List.reverseRecOn with
  | nil => simp
  | append_singleton bs b ih =>
    rw [ofBE_concat, List.length_append, List.length_singleton, Nat.pow_succ]
    have := b.isLt
    omega

/-- The bytes `be` writes are the base-256 digits of the value, most significant first. -/
theorem be_eq_digits (n : Nat) {w : Nat} (v : BitVec w) :
    be n v = (List.range n).map fun k => BitVec.ofNat 8 (v.toNat / 256 ^ (n - 1 - k)) := by
  apply List.map_congr_left
  intro k _
  apply BitVec.eq_of_toNat_eq
  simp [BitVec.extractLsb'_toNat, Nat.shiftRight_eq_div_pow, Nat.pow_mul]

theorem digits_succ (n x : Nat) :
    ((List.range (n + 1)).map fun k => BitVec.ofNat 8 (x / 256 ^ (n + 1 - 1 - k))) =
      ((List.range n).map fun k => BitVec.ofNat 8 (x / 256 / 256 ^ (n - 1 - k))) ++ [BitVec.ofNat 8 x] := by
  rw [List.range_succ, List.map_append]
  congr 1
  · apply List.map_congr_left
    intro k hk
    have hk := List.mem_range.mp hk
    have e : n + 1 - 1 - k = (n - 1 - k) + 1 := by omega
    rw [e, Nat.pow_succ, Nat.mul_comm, Nat.div_div_eq_div_mul]
  · simp

theorem ofBE_digits (n x : Nat) :
    ofBE ((List.range n).map fun k => BitVec.ofNat 8 (x / 256 ^ (n - 1 - k))) = x % 256 ^ n := by
  induction n generalizing x with
  | zero => simp [Nat.mod_one]
  | succ n ih =>
    rw [digits_succ, ofBE_concat, ih, Nat.pow_succ, Nat.mul_comm (256 ^ n), Nat.mod_mul, BitVec.toNat_ofNat]
    omega

/-- Reading back what `be` wrote gives the value, as far as n bytes hold it. -/
theorem ofBE_be (n : Nat) {w : Nat} (v : BitVec w) : ofBE (be n v) = v.toNat % 256 ^ n := by
  rw [be_eq_digits, ofBE_digits]

theorem digits_ofBE (bs : List Byte) :
    ((List.range bs.length).map fun k => BitVec.ofNat 8 (ofBE bs / 256 ^ (bs.length - 1 - k))) = bs := by
  induction bs using List.reverseRecOn with
  | nil => rfl
  | append_singleton bs b ih =>
    have hb := b.isLt
    rw [List.length_append, List.length_singleton, digits_succ, ofBE_concat]
    have e : (256 * ofBE bs + b.toNat) / 256 = ofBE bs := by omega
    rw [e, ih]
    congr 2
    apply BitVec.eq_of_toNat_eq
    rw [BitVec.toNat_ofNat]
    omega

/-- Writing back what `ofBE` read gives the bytes, where the width holds them all. -/
theorem be_ofBE (bs : List Byte) (w : Nat) (hw : w = 8 * bs.length) :
    be bs.length (BitVec.ofNat w (ofBE bs)) = bs := by
  have h := ofBE_lt bs
  have hp : (256 : Nat) ^ bs.length = 2 ^ w := by rw [hw, Nat.pow_mul]
  rw [be_eq_digits, BitVec.toNat_ofNat, ← hp, Nat.mod_eq_of_lt h, digits_ofBE]

end Sys2Proof
end

