-- ==== Sys2Proof/Laws/Checksum.lean ====
section
/-! SUPPORT. The accumulator: `sum8` of a concatenation, and as a number (spec/00_scope.md R12). -/

namespace Sys2Proof.Machine

theorem sum8_foldl (s : List Byte) (a : Byte) : s.foldl (fun acc b => acc + b) a = a + sum8 s := by
  induction s generalizing a with
  | nil => simp [sum8]
  | cons b s ih =>
    have h : sum8 (b :: s) = 0x00#8 + b + sum8 s := ih (0x00#8 + b)
    rw [List.foldl_cons, ih, h]
    simp [BitVec.add_assoc]

@[simp] theorem sum8_nil : sum8 [] = 0x00#8 := rfl

@[simp] theorem sum8_cons (b : Byte) (s : List Byte) : sum8 (b :: s) = b + sum8 s := by
  rw [sum8, List.foldl_cons, sum8_foldl]; simp

@[simp] theorem sum8_append (s t : List Byte) : sum8 (s ++ t) = sum8 s + sum8 t := by
  induction s with
  | nil => simp
  | cons b s ih => simp [ih, BitVec.add_assoc]

/-- The accumulator never keeps a carry: it is the sum of the bytes modulo 256. -/
theorem sum8_toNat (s : List Byte) : (sum8 s).toNat = (s.map BitVec.toNat).sum % 256 := by
  induction s with
  | nil => rfl
  | cons b s ih => simp [BitVec.toNat_add, ih]

end Sys2Proof.Machine
end

