-- ==== Sys2Proof/Laws/Codec.lean ====
section
/-! SUPPORT. What COMPOSE gives, and the checksum as a number. -/

namespace Sys2Proof.Machine

theorem be_address (a : Address) : be 8 a =
    [a.extractLsb' 56 8, a.extractLsb' 48 8, a.extractLsb' 40 8, a.extractLsb' 32 8,
      a.extractLsb' 24 8, a.extractLsb' 16 8, a.extractLsb' 8 8, a.extractLsb' 0 8] := rfl

theorem be_network (a : NetAddress) : be 2 a = [a.extractLsb' 8 8, a.extractLsb' 0 8] := rfl

theorem be_lenRemoteAt : be 2 Config.lenRemoteAt = [0x00#8, 0x10#8] := by decide

theorem checksum_toNat (s : List Byte) : (checksum s).toNat = 255 - (s.map BitVec.toNat).sum % 256 := by
  have h := sum8_toNat s
  have := (sum8 s).isLt
  rw [checksum, BitVec.toNat_sub, ← h]
  simp
  omega

/-- A byte that completes a sum to 0xFF is its complement. -/
theorem completes_iff (x c : Byte) : x + c = 0xFF#8 ↔ c = 0xFF#8 - x := by
  constructor
  · intro h; rw [← h]; simp
  · rintro rfl; simp

theorem composedPayload_length {o d : Byte} {t : Target} {n : List Byte} (h : n.length = 2) :
    (composedPayload o t n d).length = 16 := by
  simp [composedPayload, h]

/-- COMPOSE with a two-byte name gives the envelope of its payload. -/
theorem compose_ok {o d : Byte} {t : Target} {n : List Byte} (h : n.length = 2) :
    compose o t n d = .ok (envelope (composedPayload o t n d)) := by
  simp [compose, h, be_lenRemoteAt, Config.header, envelope, composedPayload_length h]

theorem compose_wrong_length {o d : Byte} {t : Target} {n : List Byte} (h : n.length ≠ 2) :
    compose o t n d = .error (.cmdNameLength n.length) := by
  simp [compose, h]

theorem composeForPin_ok {pin d : Byte} {t : Target} (h : pin.toNat ≤ 7) :
    composeForPin pin t d = compose 0x02#8 t [0x44#8, BitVec.ofNat 8 (48 + pin.toNat)] d := by
  have key : ∀ pin : Byte, pin.toNat ≤ 7 →
      pinAdmitted pin = true ∧ pinName pin = [0x44#8, BitVec.ofNat 8 (48 + pin.toNat)] := by decide
  simp [composeForPin, key pin h, Config.optApplyChanges]

theorem composeForPin_out_of_range {pin d : Byte} {t : Target} (h : 7 < pin.toNat) :
    composeForPin pin t d = .error (.pinRange pin) := by
  have key : ∀ pin : Byte, 7 < pin.toNat → pinAdmitted pin = false := by decide
  simp [composeForPin, key pin h]

end Sys2Proof.Machine
end

