-- ==== Sys2Proof/Laws/Decode.lean ====
section
/-! SUPPORT. The header byte's fields, and what each reader of a body makes of encoded operands. -/

namespace Sys2Proof

/-! ### The header byte `00naf<op>` -/

theorem headerByte_fields (op : BitVec 3) (t : Target) :
    opField (headerByte op t) = op ∧ hasFrameId (headerByte op t) = t.frameId.isSome ∧
      hasAddress (headerByte op t) = t.address.isSome ∧ hasNetwork (headerByte op t) = t.network.isSome ∧
      reservedBits (headerByte op t) = 0b00#2 ∧
      presenceBits (headerByte op t) =
        BitVec.ofBool t.network.isSome ++ BitVec.ofBool t.address.isSome ++ BitVec.ofBool t.frameId.isSome := by
  have h : ∀ (op : BitVec 3) (f a n : Bool),
      let h : Byte := 0b00#2 ++ BitVec.ofBool n ++ BitVec.ofBool a ++ BitVec.ofBool f ++ op
      opField h = op ∧ hasFrameId h = f ∧ hasAddress h = a ∧ hasNetwork h = n ∧ reservedBits h = 0b00#2 ∧
        presenceBits h = BitVec.ofBool n ++ BitVec.ofBool a ++ BitVec.ofBool f := by decide
  exact h op t.frameId.isSome t.address.isSome t.network.isSome

@[simp] theorem opField_headerByte (op : BitVec 3) (t : Target) : opField (headerByte op t) = op :=
  (headerByte_fields op t).1
@[simp] theorem hasFrameId_headerByte (op : BitVec 3) (t : Target) : hasFrameId (headerByte op t) = t.frameId.isSome :=
  (headerByte_fields op t).2.1
@[simp] theorem hasAddress_headerByte (op : BitVec 3) (t : Target) : hasAddress (headerByte op t) = t.address.isSome :=
  (headerByte_fields op t).2.2.1
@[simp] theorem hasNetwork_headerByte (op : BitVec 3) (t : Target) : hasNetwork (headerByte op t) = t.network.isSome :=
  (headerByte_fields op t).2.2.2.1

/-- A header of an operation that takes optional operands is never reserved. -/
theorem not_reserved_headerByte {op : BitVec 3} (t : Target) (h7 : op ≠ 0b111#3) (hp : takesNoPresenceBits op = false) :
    isReservedHeader (headerByte op t) = false := by
  simp [isReservedHeader, h7, hp, (headerByte_fields op t).2.2.2.2.1]

/-- A header with no optional operand is never reserved. -/
theorem not_reserved_absent {op : BitVec 3} (h7 : op ≠ 0b111#3) : isReservedHeader (headerByte op .absent) = false := by
  have key : ∀ op : BitVec 3, op ≠ 0b111#3 → isReservedHeader (headerByte op .absent) = false := by decide
  exact key op h7

/-! ### The readers on encoded operands -/

@[simp] theorem takeByte_cons (b : Byte) (bs : List Byte) : takeByte (b :: bs) = some (b, bs) := rfl

theorem takeBytes_append {n : Nat} {a : List Byte} (h : a.length = n) (r : List Byte) :
    takeBytes n (a ++ r) = some (a, r) := by
  subst h
  simp [takeBytes]

theorem takeBE_be (n w : Nat) (h : w = 8 * n) (v : BitVec w) (r : List Byte) : takeBE n w (be n v ++ r) = some (v, r) := by
  have hv : v.toNat < 256 ^ n := by
    have := v.isLt
    rw [show (256 : Nat) = 2 ^ 8 from rfl, ← Nat.pow_mul, ← h]
    exact this
  simp [takeBE, takeBytes_append, ofBE_be, Nat.mod_eq_of_lt hv]

theorem takeOptBE_encodeOpt (n w : Nat) (h : w = 8 * n) (v : Option (BitVec w)) (r : List Byte) :
    takeOptBE v.isSome n w (encodeOpt n v ++ r) = some (v, r) := by
  cases v with
  | none => rfl
  | some v => simp [takeOptBE, encodeOpt, takeBE_be n w h]

theorem takeTarget_encodeTarget (op : BitVec 3) (t : Target) (r : List Byte) :
    takeTarget (headerByte op t) (encodeTarget t ++ r) = some (t, r) := by
  simp only [takeTarget, encodeTarget, List.append_assoc, hasFrameId_headerByte, hasAddress_headerByte,
    hasNetwork_headerByte]
  rw [takeOptBE_encodeOpt 1 8 rfl, Option.bind_some, takeOptBE_encodeOpt 8 64 rfl, Option.bind_some,
    takeOptBE_encodeOpt 2 16 rfl, Option.bind_some]

/-! ### The readers, backwards: what they read is what stood there -/

theorem takeByte_some {bs r : List Byte} {b : Byte} (h : takeByte bs = some (b, r)) : bs = b :: r := by
  cases bs with
  | nil => simp [takeByte] at h
  | cons c cs => simp [takeByte] at h; simp [h]

theorem takeBytes_some {n : Nat} {bs a r : List Byte} (h : takeBytes n bs = some (a, r)) : bs = a ++ r ∧ a.length = n := by
  unfold takeBytes at h
  split at h
  · cases h
  · simp only [Option.some.injEq, Prod.mk.injEq] at h
    obtain ⟨rfl, rfl⟩ := h
    refine ⟨(List.take_append_drop n bs).symm, ?_⟩
    rw [List.length_take]
    omega

theorem takeBE_some {n w : Nat} (hw : w = 8 * n) {bs r : List Byte} {v : BitVec w} (h : takeBE n w bs = some (v, r)) :
    bs = be n v ++ r := by
  unfold takeBE at h
  obtain ⟨⟨a, r'⟩, ha, he⟩ := Option.map_eq_some_iff.mp h
  obtain ⟨rfl, rfl⟩ := Prod.mk.inj he
  obtain ⟨rfl, rfl⟩ := takeBytes_some ha
  rw [be_ofBE a w hw]

theorem takeOptBE_some {n w : Nat} (hw : w = 8 * n) {present : Bool} {bs r : List Byte} {v : Option (BitVec w)}
    (h : takeOptBE present n w bs = some (v, r)) : bs = encodeOpt n v ++ r ∧ v.isSome = present := by
  unfold takeOptBE at h
  split at h
  · obtain ⟨⟨a, r'⟩, ha, he⟩ := Option.map_eq_some_iff.mp h
    obtain ⟨rfl, rfl⟩ := Prod.mk.inj he
    exact ⟨takeBE_some hw ha, by simp [*]⟩
  · simp only [Option.some.injEq, Prod.mk.injEq] at h
    obtain ⟨rfl, rfl⟩ := h
    exact ⟨rfl, by simp_all⟩

theorem takeTarget_some {h : Byte} {bs r : List Byte} {t : Target} (ht : takeTarget h bs = some (t, r)) :
    bs = encodeTarget t ++ r ∧ t.frameId.isSome = hasFrameId h ∧ t.address.isSome = hasAddress h ∧
      t.network.isSome = hasNetwork h := by
  unfold takeTarget at ht
  obtain ⟨⟨f, r1⟩, h1, ht⟩ := Option.bind_eq_some_iff.mp ht
  obtain ⟨⟨a, r2⟩, h2, ht⟩ := Option.bind_eq_some_iff.mp ht
  obtain ⟨⟨n, r3⟩, h3, ht⟩ := Option.bind_eq_some_iff.mp ht
  simp only [Option.some.injEq, Prod.mk.injEq] at ht
  obtain ⟨rfl, rfl⟩ := ht
  obtain ⟨rfl, e1⟩ := takeOptBE_some rfl h1
  obtain ⟨e2', e2⟩ := takeOptBE_some rfl h2
  obtain ⟨e3', e3⟩ := takeOptBE_some rfl h3
  simp only at e2' e3'
  subst e2' e3'
  exact ⟨by simp [encodeTarget], e1, e2, e3⟩

/-- A header that is not reserved is the header byte of its own fields. -/
theorem headerByte_of_fields {h : Byte} {op : BitVec 3} {t : Target} (hr : isReservedHeader h = false) (ho : opField h = op)
    (h1 : t.frameId.isSome = hasFrameId h) (h2 : t.address.isSome = hasAddress h)
    (h3 : t.network.isSome = hasNetwork h) : headerByte op t = h := by
  have key : ∀ h : Byte, isReservedHeader h = false →
      (0b00#2 ++ BitVec.ofBool (hasNetwork h) ++ BitVec.ofBool (hasAddress h) ++ BitVec.ofBool (hasFrameId h) ++
        opField h : Byte) = h := by decide
  rw [headerByte, h1, h2, h3, ← ho]
  exact key h hr

/-- A header that is not reserved, of an operation without optional operands. -/
theorem headerByte_absent {h : Byte} {op : BitVec 3} (hr : isReservedHeader h = false) (ho : opField h = op)
    (hp : takesNoPresenceBits op = true) : headerByte op .absent = h := by
  have key : ∀ h : Byte, isReservedHeader h = false → takesNoPresenceBits (opField h) = true →
      headerByte (opField h) .absent = h := by decide
  subst ho
  exact key h hr hp

end Sys2Proof
end

