-- ==== Sys2Proof/Laws/State.lean ====
section
/-! SUPPORT. The small lemmas of the state operations: what each leaves in each field. -/

namespace Sys2Proof.Machine

section Fields
variable (s : State) (inst : Byte) (p : Parser) (r : Reply) (q : ParserStep)

@[simp] theorem setParser_parsers : (s.setParser inst p).parsers = s.parsers.set inst.toNat p := rfl
@[simp] theorem setParser_refusalMark : (s.setParser inst p).refusalMark = s.refusalMark := rfl
@[simp] theorem setParser_out : (s.setParser inst p).out = s.out := rfl
@[simp] theorem setParser_pending : (s.setParser inst p).pending = s.pending := rfl

@[simp] theorem quiet_parsers : s.quiet.parsers = s.parsers := rfl
@[simp] theorem quiet_refusalMark : s.quiet.refusalMark = s.refusalMark := rfl
@[simp] theorem quiet_out : s.quiet.out = Output.none := rfl
@[simp] theorem quiet_pending : s.quiet.pending = s.pending := rfl

@[simp] theorem answer_parsers : (s.answer r).parsers = s.parsers := rfl
@[simp] theorem answer_refusalMark : (s.answer r).refusalMark = s.refusalMark := rfl
@[simp] theorem answer_out : (s.answer r).out = ⟨none, none, some r⟩ := rfl
@[simp] theorem answer_pending : (s.answer r).pending = s.pending := rfl

@[simp] theorem commit_parsers : (s.commit inst q).parsers = s.parsers.set inst.toNat q.parser := rfl
@[simp] theorem commit_refusalMark : (s.commit inst q).refusalMark = s.refusalMark := rfl
@[simp] theorem commit_out : (s.commit inst q).out = ⟨some q.event, q.emitted, none⟩ := rfl
@[simp] theorem commit_pending : (s.commit inst q).pending = s.pending := rfl

@[simp] theorem hardwareReset_parsers : s.hardwareReset.parsers = s.parsers.map Parser.recreate := rfl
@[simp] theorem hardwareReset_refusalMark : s.hardwareReset.refusalMark = s.refusalMark := rfl
@[simp] theorem hardwareReset_out : s.hardwareReset.out = Output.none := rfl
@[simp] theorem hardwareReset_pending : s.hardwareReset.pending = s.pending := rfl

@[simp] theorem toSeek_phase : p.toSeek.phase = .seekHeader := rfl
@[simp] theorem toSeek_remainingLength : p.toSeek.remainingLength = 0x00#8 := rfl
@[simp] theorem toSeek_runningChecksum : p.toSeek.runningChecksum = 0x00#8 := rfl
@[simp] theorem toSeek_payload : p.toSeek.payload = [] := rfl
@[simp] theorem toSeek_isOpen : p.toSeek.isOpen = p.isOpen := rfl
@[simp] theorem toSeek_fault : p.toSeek.fault = p.fault := rfl

@[simp] theorem recreate_isOpen : p.recreate.isOpen = true := rfl
@[simp] theorem recreate_fault : p.recreate.fault = p.fault := rfl

end Fields

/-! ### Reading an instance after writing one -/

theorem parser?_setParser_same {s : State} {inst : Byte} {p q : Parser} (h : s.parser? inst = some p) :
    (s.setParser inst q).parser? inst = some q := by
  have hlt := (List.getElem?_eq_some_iff.mp h).1
  simp [State.parser?, hlt]

theorem parser?_setParser_other {s : State} {i j : Byte} {q : Parser} (h : j ≠ i) :
    (s.setParser i q).parser? j = s.parser? j := by
  have : i.toNat ≠ j.toNat := fun e => h (BitVec.eq_of_toNat_eq e.symm)
  simp [State.parser?, List.getElem?_set_ne this]

@[simp] theorem parser?_quiet (s : State) (inst : Byte) : s.quiet.parser? inst = s.parser? inst := rfl
@[simp] theorem parser?_answer (s : State) (r : Reply) (inst : Byte) : (s.answer r).parser? inst = s.parser? inst := rfl

theorem parser?_commit_same {s : State} {inst : Byte} {p : Parser} {r : ParserStep} (h : s.parser? inst = some p) :
    (s.commit inst r).parser? inst = some r.parser :=
  parser?_setParser_same (s := s) h

theorem parser?_commit_other {s : State} {i j : Byte} {r : ParserStep} (h : j ≠ i) :
    (s.commit i r).parser? j = s.parser? j :=
  parser?_setParser_other (s := s) h

theorem parser?_mem {s : State} {inst : Byte} {p : Parser} (h : s.parser? inst = some p) : p ∈ s.parsers :=
  List.mem_of_getElem? h

/-! ### Taking an exceptional outcome (R160, R168) -/

/-- Everything `raise` leaves alone, and the report it makes. -/
theorem raise_out (e : Exceptional) (s : State) : (s.raise e).out = ⟨none, none, some (.raised e)⟩ := by
  cases e <;> (simp [State.raise, State.recordFault]; try (split <;> rfl))

theorem raise_pending (e : Exceptional) (s : State) : (s.raise e).pending = s.pending := by
  cases e <;> (simp [State.raise, State.recordFault]; try (split <;> rfl))

/-- `raise` writes the refusal mark for a refusal, and nothing else writes it. -/
theorem raise_refusalMark (e : Exceptional) (s : State) :
    (s.raise e).refusalMark =
      (match e with
        | .reservedEncoding _ => true
        | .noSuchInstance _ => true
        | _ => s.refusalMark) := by
  cases e <;> (simp [State.raise, State.recordFault]; try (split <;> rfl))

/-- `raise` writes an instance only for STATE_DESTROYED, and there only its fault record. -/
theorem raise_parsers (e : Exceptional) (s : State) :
    (s.raise e).parsers = s.parsers ∨
      ∃ inst b p, e = .stateDestroyed inst b ∧ s.parser? inst = some p ∧
        (s.raise e).parsers = s.parsers.set inst.toNat { p with fault := some .stateDestroyed } := by
  cases e with
  | stateDestroyed inst b =>
    cases h : s.parser? inst with
    | none => left; simp [State.raise, State.recordFault, h]
    | some p => exact .inr ⟨inst, b, p, rfl, h, by simp [State.raise, State.recordFault, h]⟩
  | _ => left; rfl

/-- STATE_DESTROYED of an existing instance, whole. -/
theorem raise_stateDestroyed {s : State} {inst b : Byte} {p : Parser} (h : s.parser? inst = some p) :
    s.raise (.stateDestroyed inst b) =
      { s with
        parsers := s.parsers.set inst.toNat { p with fault := some .stateDestroyed }
        out := ⟨none, none, some (.raised (.stateDestroyed inst b))⟩ } := by
  simp only [State.raise, State.recordFault, parser?_answer, h]
  rfl

/-- Writing back what stands there changes nothing. -/
theorem set_same {α : Type} {l : List α} {i : Nat} {a : α} (h : l[i]? = some a) : l.set i a = l := by
  apply List.ext_getElem?
  intro j
  by_cases hj : i = j
  · subst hj; rw [List.getElem?_set_self (List.getElem?_eq_some_iff.mp h).1, h]
  · rw [List.getElem?_set_ne hj]

/-! ### Which instance a FEED_BYTE reaches -/

theorem live_iff (p : Parser) : p.live = true ↔ p.isOpen = true ∧ p.fault = none := by
  simp [Parser.live, Parser.faulted]

theorem feedable_ok_iff {inst b : Byte} {s : State} {p : Parser} :
    feedable inst b s = .ok p ↔ s.parser? inst = some p ∧ p.isOpen = true ∧ p.fault = none := by
  unfold feedable
  cases h : s.parser? inst with
  | none => simp
  | some q =>
    by_cases hl : q.live = true
    · simp only [hl, if_true, Except.ok.injEq, Option.some.injEq]
      constructor
      · rintro rfl; exact ⟨rfl, (live_iff _).mp hl⟩
      · exact fun h => h.1
    · simp only [hl, Option.some.injEq]
      constructor
      · intro h; cases h
      · rintro ⟨rfl, h2⟩; exact absurd ((live_iff _).mpr h2) hl

/-- What a FEED_BYTE is answered with where no live instance is reached (checks 2 and 3 of R167). -/
theorem feedable_error {inst b : Byte} {s : State} {e : Exceptional} (h : feedable inst b s = .error e) :
    (s.parser? inst = none ∧ e = .noSuchInstance inst) ∨
      ∃ p, s.parser? inst = some p ∧ p.live = false ∧ e = .stateDestroyed inst b := by
  unfold feedable at h
  cases hp : s.parser? inst with
  | none => simp [hp] at h; exact .inl ⟨rfl, h.symm⟩
  | some q =>
    by_cases hl : q.live = true
    · simp [hp, hl] at h
    · simp [hp, hl] at h; exact .inr ⟨q, rfl, by simpa using hl, h.symm⟩

/-! ### What RESET and CLOSE do -/

/-- Everything a lifecycle operation can do. -/
theorem lifecycle_cases (inst : Byte) (write : Parser → Parser) (s : State) :
    (s.parser? inst = none ∧ s.lifecycle inst write = s.raise (.noSuchInstance inst)) ∨
    (∃ p, s.parser? inst = some p ∧ p.fault ≠ none ∧ s.lifecycle inst write = s.quiet) ∨
    (∃ p, s.parser? inst = some p ∧ p.fault = none ∧ s.lifecycle inst write = (s.setParser inst (write p)).quiet) := by
  unfold State.lifecycle existing
  cases hp : s.parser? inst with
  | none => exact .inl ⟨rfl, rfl⟩
  | some p =>
    cases hf : p.fault with
    | none => exact .inr (.inr ⟨p, rfl, hf, by simp [Parser.faulted, hf]⟩)
    | some f => exact .inr (.inl ⟨p, rfl, by simp [hf], by simp [Parser.faulted, hf]⟩)

end Sys2Proof.Machine
end

