-- ==== Sys2Proof/Laws/Parsing.lean ====
section
/-! SUPPORT. What FEED_BYTE, the rows and `step` can do, each said once. -/

namespace Sys2Proof.Machine

/-! ### `consume`, phase by phase -/

section Phases
variable {p : Parser} {b : Byte}

theorem consume_seekHeader (h : p.phase = .seekHeader) :
    consume p b = if b = 0x7E#8 then rowSeekHeaderHeader p else rowSeekHeaderDiscard p := by
  simp [consume, h, Config.header]

theorem consume_expectLengthHigh (h : p.phase = .expectLengthHigh) :
    consume p b = if b = 0x00#8 then rowExpectLengthHighZero p else rowExpectLengthHighResync p := by
  simp [consume, h, Config.lenHiRequired]

theorem consume_readLengthLow (h : p.phase = .readLengthLow) : consume p b = rowReadLengthLowLength p b := by
  simp [consume, h]

theorem consume_collect_payload (h : p.phase = .collect) (hr : p.remainingLength ≠ 0x00#8) :
    consume p b = rowCollectPayload p b := by
  simp only [consume, h, bne_iff_ne, ne_eq, hr, not_false_eq_true, if_true]

theorem consume_collect_end (h : p.phase = .collect) (hr : p.remainingLength = 0x00#8) :
    consume p b = if p.runningChecksum + b = 0xFF#8 then rowCollectFrameOk p else rowCollectFrameBad p := by
  simp [consume, h, hr, checksumMatches, Config.checkTarget]

end Phases

/-- A consumed byte never writes `open` or `fault` (R26, R134). -/
theorem consume_keeps (p : Parser) (b : Byte) :
    (consume p b).parser.isOpen = p.isOpen ∧ (consume p b).parser.fault = p.fault := by
  unfold consume
  split
  · split <;> exact ⟨rfl, rfl⟩
  · split <;> exact ⟨rfl, rfl⟩
  · exact ⟨rfl, rfl⟩
  · split
    · exact ⟨rfl, rfl⟩
    · split <;> exact ⟨rfl, rfl⟩

theorem consume_live (p : Parser) (b : Byte) : (consume p b).parser.live = p.live := by
  simp [Parser.live, Parser.faulted, consume_keeps]

/-! ### FEED_BYTE and its rows -/

theorem feedByte_live {s : State} {inst b : Byte} {p : Parser} (h : feedable inst b s = .ok p) :
    feedByte inst b s = s.commit inst (consume p b) := by simp [feedByte, h]

theorem feedByte_error {s : State} {inst b : Byte} {e : Exceptional} (h : feedable inst b s = .error e) :
    feedByte inst b s = s.raise e := by simp [feedByte, h]

theorem feedable_of_live {s : State} {inst b : Byte} {p : Parser} (h : s.Live inst p) : feedable inst b s = .ok p :=
  feedable_ok_iff.mpr h

/-- After a byte the instance is live still. -/
theorem live_commit {s : State} {inst b : Byte} {p : Parser} (h : s.Live inst p) :
    (s.commit inst (consume p b)).Live inst (consume p b).parser := by
  have hk := consume_keeps p b
  exact ⟨parser?_commit_same h.1, hk.1.trans h.2.1, hk.2.trans h.2.2⟩

/-- A row gives a next state, an exceptional outcome, or, where it is not selected, the fault. -/
theorem runRow_cases (inst b : Byte) (sel : Parser → Bool) (row : Parser → ParserStep) (s : State) :
    (∃ e, feedable inst b s = .error e ∧ runRow inst b sel row s = .next (s.raise e)) ∨
    (∃ p, feedable inst b s = .ok p ∧ sel p = true ∧ runRow inst b sel row s = .next (s.commit inst (row p))) ∨
    (∃ p, feedable inst b s = .ok p ∧ sel p = false ∧ runRow inst b sel row s = .fault (.rowNotSelected p.phase)) := by
  cases h : feedable inst b s with
  | error e => exact .inl ⟨e, rfl, by simp [runRow, h]⟩
  | ok p =>
    cases hs : sel p with
    | true => exact .inr (.inl ⟨p, rfl, hs, by simp [runRow, h, hs]⟩)
    | false => exact .inr (.inr ⟨p, rfl, hs, by simp [runRow, h, hs]⟩)

/-- Every row operation is `runRow` of the byte it carries. -/
theorem exec_row {i : Instr} {inst b : Byte} (h : i.carriedByte = some (inst, b)) (s : State) :
    ∃ sel row, exec i s = runRow inst b sel row s := by
  cases i <;> simp [Instr.carriedByte] at h <;> obtain ⟨rfl, rfl⟩ := h <;> exact ⟨_, _, rfl⟩

/-! ### `feed`, byte by byte -/

theorem feed_nil (inst : Byte) (s : State) : feed inst [] s = (s, []) := rfl

theorem feed_cons_live {s : State} {inst b : Byte} {p : Parser} (h : s.Live inst p) (bs : List Byte) :
    feed inst (b :: bs) s =
      ((feed inst bs (s.commit inst (consume p b))).1,
        (consume p b).emitted.toList ++ (feed inst bs (s.commit inst (consume p b))).2) := by
  simp [feed, feedByte_live (feedable_of_live h)]

theorem feed_cons_error {s : State} {inst b : Byte} {e : Exceptional} (h : feedable inst b s = .error e) (bs : List Byte) :
    feed inst (b :: bs) s = (s.raise e, []) := by
  simp [feed, feedByte_error h, raise_out]

end Sys2Proof.Machine
end

