-- ==== Sys2Proof/Laws/Step.lean ====
section
/-! SUPPORT. What an operation and a step can do, said once. -/

namespace Sys2Proof.Machine

/-- A row that runs does what FEED_BYTE of its byte does. -/
theorem exec_row_next {i : Instr} {inst b : Byte} {s t : State} (hi : i.carriedByte = some (inst, b))
    (h : exec i s = .next t) : t = feedByte inst b s := by
  have key : ∀ (sel : Parser → Bool) (row : Parser → ParserStep), (∀ p, sel p = true → row p = consume p b) →
      runRow inst b sel row s = .next t → t = feedByte inst b s := by
    intro sel row hsel hr
    rcases runRow_cases inst b sel row s with ⟨e, hf, h2⟩ | ⟨p, hf, hs, h2⟩ | ⟨p, hf, hs, h2⟩
    · rw [h2] at hr; cases hr; exact (feedByte_error hf).symm
    · rw [h2] at hr; cases hr; rw [feedByte_live hf, hsel p hs]
    · rw [h2] at hr; cases hr
  cases i with
  | seekHeaderHeader =>
    cases hi
    exact key _ _ (fun p hp => by rw [consume_seekHeader (by simpa using hp)]; rfl) h
  | seekHeaderDiscard =>
    cases hi
    refine key _ _ (fun p hp => ?_) h
    simp only [Config.header, Bool.and_eq_true, beq_iff_eq, bne_iff_ne] at hp
    rw [consume_seekHeader hp.1, if_neg hp.2]
  | expectLengthHighZero =>
    cases hi
    exact key _ _ (fun p hp => by rw [consume_expectLengthHigh (by simpa using hp)]; rfl) h
  | expectLengthHighResync =>
    cases hi
    refine key _ _ (fun p hp => ?_) h
    simp only [Config.lenHiRequired, Bool.and_eq_true, beq_iff_eq, bne_iff_ne] at hp
    rw [consume_expectLengthHigh hp.1, if_neg hp.2]
  | readLengthLowLength =>
    cases hi
    exact key _ _ (fun p hp => (consume_readLengthLow (by simpa using hp)).symm) h
  | collectPayload =>
    cases hi
    refine key _ _ (fun p hp => ?_) h
    simp only [Bool.and_eq_true, beq_iff_eq, bne_iff_ne] at hp
    exact (consume_collect_payload hp.1 hp.2).symm
  | collectFrameOk =>
    cases hi
    refine key _ _ (fun p hp => ?_) h
    simp only [checksumMatches, Config.checkTarget, Bool.and_eq_true, beq_iff_eq] at hp
    rw [consume_collect_end hp.1.1 hp.1.2, if_pos hp.2]
  | collectFrameBad =>
    cases hi
    refine key _ _ (fun p hp => ?_) h
    simp only [checksumMatches, Config.checkTarget, Bool.and_eq_true, beq_iff_eq, Bool.not_eq_true',
      beq_eq_false_iff_ne] at hp
    rw [consume_collect_end hp.1.1 hp.1.2, if_neg hp.2]
  | _ => cases hi

/-- The operation feeds byte `b` to instance `inst`: FEED_BYTE, or a row of the byte decode table. -/
def Feeds (i : Instr) (inst b : Byte) : Prop := i = .feedByte inst b ∨ i.carriedByte = some (inst, b)

/-- Everything an operation that gives a next state can have done. -/
inductive Effect (i : Instr) (s : State) : State → Prop where
  /-- an exceptional outcome; STATE_DESTROYED only by a byte fed to an existing instance -/
  | raised (e : Exceptional)
      (h : ∀ inst b, e = .stateDestroyed inst b → Feeds i inst b ∧ ∃ p, s.parser? inst = some p) : Effect i s (s.raise e)
  /-- a frame or a checksum -/
  | answered (r : Reply) (hr : ∀ e, r ≠ .raised e) (hi : i.isRequest = true) : Effect i s (s.answer r)
  /-- RESET or CLOSE of an instance with a fault recorded -/
  | stayed (inst : Byte) (p : Parser) (hi : i = .reset inst ∨ i = .close inst) (hp : s.parser? inst = some p)
      (hf : p.fault ≠ none) : Effect i s s.quiet
  /-- RESET of an existing instance -/
  | recreated (inst : Byte) (p : Parser) (hi : i = .reset inst) (hp : s.parser? inst = some p) (hf : p.fault = none) :
      Effect i s (s.setParser inst p.recreate).quiet
  /-- CLOSE of an existing instance -/
  | closed (inst : Byte) (p : Parser) (hi : i = .close inst) (hp : s.parser? inst = some p) (hf : p.fault = none) :
      Effect i s (s.setParser inst { p with isOpen := false }).quiet
  /-- a byte consumed by a live instance -/
  | consumed (inst b : Byte) (p : Parser) (hi : Feeds i inst b) (hl : s.Live inst p) :
      Effect i s (s.commit inst (consume p b))

theorem feeds_effect {i : Instr} {inst b : Byte} {s : State} (hi : Feeds i inst b) : Effect i s (feedByte inst b s) := by
  cases hf : feedable inst b s with
  | error e =>
    rw [feedByte_error hf]
    refine .raised e ?_
    rintro k c rfl
    rcases feedable_error hf with ⟨-, he⟩ | ⟨p, hp, -, he⟩
    · cases he
    · cases he; exact ⟨hi, p, hp⟩
  | ok p => rw [feedByte_live hf]; exact .consumed inst b p hi (feedable_ok_iff.mp hf)

theorem compose_error {o d : Byte} {t : Target} {n : List Byte} {e : Exceptional} (h : compose o t n d = .error e) :
    e = .cmdNameLength n.length := by
  unfold compose at h
  split at h
  · cases h
  · cases h; rfl

theorem composeForPin_error {p d : Byte} {t : Target} {e : Exceptional} (h : composeForPin p t d = .error e) :
    e = .pinRange p := by
  unfold composeForPin at h
  split at h
  · simp [compose, pinName] at h
  · cases h; rfl

theorem answerFrame_effect {i : Instr} {s : State} {c : Except Exceptional (List Byte)} (hi : i.isRequest = true)
    (hc : ∀ e, c = .error e → ∀ inst b, e ≠ .stateDestroyed inst b) : Effect i s (s.answerFrame c) := by
  cases c with
  | ok f => exact .answered (.frame f) (by simp) hi
  | error e => exact .raised e fun inst b he => absurd he (hc e rfl inst b)

/-- Everything an operation that gives a next state can have done. -/
theorem exec_effect {i : Instr} {s t : State} (h : exec i s = .next t) : Effect i s t := by
  have rows : ∀ inst b, i.carriedByte = some (inst, b) → Effect i s t := fun inst b hi => by
    rw [exec_row_next hi h]; exact feeds_effect (.inr hi)
  cases i with
  | reset inst =>
    cases h
    rcases lifecycle_cases inst Parser.recreate s with ⟨-, h⟩ | ⟨p, hp, hf, h⟩ | ⟨p, hp, hf, h⟩ <;> rw [h]
    · exact .raised _ (by simp)
    · exact .stayed inst p (.inl rfl) hp hf
    · exact .recreated inst p rfl hp hf
  | close inst =>
    cases h
    rcases lifecycle_cases inst (fun p => { p with isOpen := false }) s with ⟨-, h⟩ | ⟨p, hp, hf, h⟩ | ⟨p, hp, hf, h⟩ <;>
      rw [h]
    · exact .raised _ (by simp)
    · exact .stayed inst p (.inr rfl) hp hf
    · exact .closed inst p rfl hp hf
  | feedByte inst b => cases h; exact feeds_effect (.inl rfl)
  | compose o tg n d =>
    cases h; exact answerFrame_effect rfl fun e he inst b => by rw [compose_error he]; simp
  | checksumOf sp => cases h; exact .answered _ (by simp) rfl
  | buildDigitalOutput p on tg =>
    cases h; exact answerFrame_effect rfl fun e he inst b => by rw [composeForPin_error he]; simp
  | buildPinConfig p c tg =>
    cases h; exact answerFrame_effect rfl fun e he inst b => by rw [composeForPin_error he]; simp
  | reserved hd => cases h; exact .raised _ (by simp)
  | seekHeaderHeader => exact rows _ _ rfl
  | seekHeaderDiscard => exact rows _ _ rfl
  | expectLengthHighZero => exact rows _ _ rfl
  | expectLengthHighResync => exact rows _ _ rfl
  | readLengthLowLength => exact rows _ _ rfl
  | collectPayload => exact rows _ _ rfl
  | collectFrameOk => exact rows _ _ rfl
  | collectFrameBad => exact rows _ _ rfl

/-- Everything a step that gives a next state can have done. -/
theorem step_cases {s t : State} (h : step s = .next t) :
    (s.pending = [] ∧ t = s.quiet) ∨
    (∃ rest, s.pending = .hardwareReset :: rest ∧ t = { s with pending := rest }.hardwareReset) ∨
    (∃ bs rest i, s.pending = .request bs :: rest ∧ decode bs = .ok i ∧ exec i { s with pending := rest } = .next t) := by
  unfold step at h
  split at h
  · rename_i hp; cases h; exact .inl ⟨hp, rfl⟩
  · rename_i rest hp; cases h; exact .inr (.inl ⟨rest, hp, rfl⟩)
  · rename_i bs rest hp
    split at h
    · rename_i i hd; exact .inr (.inr ⟨bs, rest, i, hp, hd, h⟩)
    · cases h

end Sys2Proof.Machine
end

