-- ==== Sys2Proof/Laws/Invariant.lean ====
section
/-! SUPPORT. The register invariant (spec/10_state.md R32), what a consumed byte emits, and what an operation keeps. -/

namespace Sys2Proof.Machine

theorem toSeek_inv (p : Parser) : p.toSeek.Inv := by simp [Parser.Inv]

theorem recreate_inv (p : Parser) : p.recreate.Inv := by simp [Parser.Inv, Parser.recreate]

theorem toNat_pos {b : Byte} (h : b ≠ 0x00#8) : 0 < b.toNat := by
  rcases Nat.eq_zero_or_pos b.toNat with e | e
  · exact absurd (BitVec.eq_of_toNat_eq (by simpa using e)) h
  · exact e

/-- A consumed byte keeps the invariant of its instance. -/
theorem consume_inv {p : Parser} (h : p.Inv) (b : Byte) : (consume p b).parser.Inv := by
  cases hp : p.phase with
  | seekHeader =>
    simp [Parser.Inv, hp] at h
    rw [consume_seekHeader hp]
    split <;> simp [Parser.Inv, rowSeekHeaderHeader, rowSeekHeaderDiscard, h, hp]
  | expectLengthHigh =>
    simp [Parser.Inv, hp] at h
    rw [consume_expectLengthHigh hp]
    split <;> simp [Parser.Inv, rowExpectLengthHighZero, rowExpectLengthHighResync, h]
  | readLengthLow =>
    have := b.isLt
    simp [consume_readLengthLow hp, Parser.Inv, rowReadLengthLowLength, Config.payloadMax]
    omega
  | collect =>
    by_cases hr : p.remainingLength = 0x00#8
    · rw [consume_collect_end hp hr]
      split
      · exact toSeek_inv p
      · exact toSeek_inv p
    · simp [Parser.Inv, hp, Config.payloadMax] at h
      have := toNat_pos hr
      have := p.remainingLength.isLt
      simp [consume_collect_payload hp hr, Parser.Inv, rowCollectPayload, hp, payloadAppend, h.1, Config.payloadMax,
        BitVec.toNat_sub]
      omega

/-- What is emitted is the whole payload, at the end of a collected frame, by the byte that completes its sum. -/
theorem consume_emitted {p : Parser} {b : Byte} {f : List Byte} (h : (consume p b).emitted = some f) :
    p.phase = .collect ∧ p.remainingLength = 0x00#8 ∧ f = p.payload ∧ p.runningChecksum + b = 0xFF#8 := by
  cases hp : p.phase with
  | seekHeader =>
    rw [consume_seekHeader hp] at h
    split at h <;> simp [rowSeekHeaderHeader, rowSeekHeaderDiscard] at h
  | expectLengthHigh =>
    rw [consume_expectLengthHigh hp] at h
    split at h <;> simp [rowExpectLengthHighZero, rowExpectLengthHighResync] at h
  | readLengthLow => simp [consume_readLengthLow hp, rowReadLengthLowLength] at h
  | collect =>
    by_cases hr : p.remainingLength = 0x00#8
    · rw [consume_collect_end hp hr] at h
      split at h
      · simp [rowCollectFrameOk] at h; exact ⟨rfl, hr, h.symm, by assumption⟩
      · simp [rowCollectFrameBad] at h
    · simp [consume_collect_payload hp hr, rowCollectPayload] at h

theorem set_inv {l : List Parser} {i : Nat} {q : Parser} (h : ∀ p ∈ l, p.Inv) (hq : q.Inv) :
    ∀ p ∈ l.set i q, p.Inv := by
  intro p hp
  rcases List.mem_or_eq_of_mem_set hp with h1 | rfl
  · exact h p h1
  · exact hq

/-- An operation keeps the invariant of the state. -/
theorem effect_inv {i : Instr} {s t : State} (he : Effect i s t) (hs : s.Inv) : t.Inv := by
  cases he with
  | raised e h =>
    rcases raise_parsers e s with h1 | ⟨inst, b, p, -, hp, h1⟩
    · simpa [State.Inv, h1] using hs
    · intro q hq
      rw [h1] at hq
      exact set_inv (q := { p with fault := some .stateDestroyed }) hs (hs p (parser?_mem hp)) q hq
  | answered r hr hi => exact hs
  | stayed => exact hs
  | recreated inst p hi hp hf => exact set_inv hs (recreate_inv p)
  | closed inst p hi hp hf => exact set_inv hs (hs p (parser?_mem hp))
  | consumed inst b p hi hl => exact set_inv hs (consume_inv (hs p (parser?_mem hl.1)) b)

/-- An operation neither adds nor removes an instance. -/
theorem effect_length {i : Instr} {s t : State} (he : Effect i s t) : t.parsers.length = s.parsers.length := by
  cases he with
  | raised e h => rcases raise_parsers e s with h1 | ⟨inst, b, p, -, hp, h1⟩ <;> simp [h1]
  | _ => simp

/-- An operation leaves the inputs still to come as they are. -/
theorem effect_pending {i : Instr} {s t : State} (he : Effect i s t) : t.pending = s.pending := by
  cases he with
  | raised e h => exact raise_pending e s
  | _ => rfl

end Sys2Proof.Machine
end

