-- ==== Sys2Proof/Laws/PerInstr.lean ====
section
/-! SUPPORT. Statements made once per operation. EncodeLength: the length that a request's own bytes announce is the length
of its encoding, so a word that spells a whole request is presented as it stands. -/

namespace Sys2Proof.Laws.EncodeLength

/-- What the family says of an operation. -/
def Statement (i : Instr) : Prop := i.wellFormed = true → requestLength (encode i) = (encode i).length

theorem encodeOpt_length (n : Nat) {w : Nat} (v : Option (BitVec w)) :
    (encodeOpt n v).length = if v.isSome then n else 0 := by
  cases v <;> simp [encodeOpt]

theorem encodeTarget_length (t : Target) : (encodeTarget t).length =
    (if t.frameId.isSome then 1 else 0) + (if t.address.isSome then 8 else 0) + (if t.network.isSome then 2 else 0) := by
  simp [encodeTarget, encodeOpt_length, Nat.add_assoc]

theorem feed (inst b : Byte) : requestLength (encodeFeed inst b) = (encodeFeed inst b).length := by
  simp [requestLength, encodeFeed, not_reserved_absent (op := 0b010#3) (by decide)]

theorem reset (inst : Byte) : Statement (.reset inst) := by
  intro _
  simp [requestLength, encode, not_reserved_absent (op := 0b000#3) (by decide)]

theorem close (inst : Byte) : Statement (.close inst) := by
  intro _
  simp [requestLength, encode, not_reserved_absent (op := 0b001#3) (by decide)]

theorem feedByte (inst b : Byte) : Statement (.feedByte inst b) := fun _ => feed inst b

theorem compose (o : Byte) (t : Target) (n : List Byte) (d : Byte) : Statement (.compose o t n d) := by
  intro h
  have hn : n.length < 256 := by simpa [Instr.wellFormed] using h
  have hl := encodeTarget_length t
  simp only [requestLength, encode, List.cons_append, List.headD_cons,
    not_reserved_headerByte (op := 0b011#3) t (by decide) (by decide), opField_headerByte, hasFrameId_headerByte,
    hasAddress_headerByte, hasNetwork_headerByte, ← hl]
  have hg : (headerByte 0b011#3 t :: o :: (encodeTarget t ++ BitVec.ofNat 8 n.length :: (n ++ [d])))[
      2 + (encodeTarget t).length]? = some (BitVec.ofNat 8 n.length) := by
    rw [Nat.add_comm 2]
    simp
  simp [hg]
  omega

theorem checksumOf (s : List Byte) : Statement (.checksumOf s) := by
  intro h
  have hn : s.length < 4294967296 := by simpa [Instr.wellFormed] using h
  have hb := ofBE_be 4 (BitVec.ofNat 32 s.length)
  have hbe : be 4 (BitVec.ofNat 32 s.length) = [(BitVec.ofNat 32 s.length).extractLsb' 24 8,
    (BitVec.ofNat 32 s.length).extractLsb' 16 8, (BitVec.ofNat 32 s.length).extractLsb' 8 8,
    (BitVec.ofNat 32 s.length).extractLsb' 0 8] := rfl
  rw [hbe] at hb
  have hm : (BitVec.ofNat 32 s.length).toNat % 256 ^ 4 = s.length := by
    rw [BitVec.toNat_ofNat]; omega
  rw [hm] at hb
  simp only [requestLength, encode, hbe, List.cons_append, List.nil_append, List.headD_cons, List.getD_cons_succ,
    List.getD_cons_zero, hb, not_reserved_absent (op := 0b100#3) (by decide), opField_headerByte]
  simp
  omega

theorem buildDigitalOutput (p on : Byte) (t : Target) : Statement (.buildDigitalOutput p on t) := by
  intro _
  have hl := encodeTarget_length t
  simp [requestLength, encode, not_reserved_headerByte (op := 0b101#3) t (by decide) (by decide)]
  omega

theorem buildPinConfig (p c : Byte) (t : Target) : Statement (.buildPinConfig p c t) := by
  intro _
  have hl := encodeTarget_length t
  simp [requestLength, encode, not_reserved_headerByte (op := 0b110#3) t (by decide) (by decide)]
  omega

theorem reserved (h : Byte) : Statement (.reserved h) := by
  intro hr
  have hr : isReservedHeader h = true := hr
  simp [requestLength, encode, hr]

theorem seekHeaderHeader (inst : Byte) : Statement (.seekHeaderHeader inst) := fun _ => feed _ _
theorem seekHeaderDiscard (inst b : Byte) : Statement (.seekHeaderDiscard inst b) := fun _ => feed _ _
theorem expectLengthHighZero (inst : Byte) : Statement (.expectLengthHighZero inst) := fun _ => feed _ _
theorem expectLengthHighResync (inst b : Byte) : Statement (.expectLengthHighResync inst b) := fun _ => feed _ _
theorem readLengthLowLength (inst b : Byte) : Statement (.readLengthLowLength inst b) := fun _ => feed _ _
theorem collectPayload (inst b : Byte) : Statement (.collectPayload inst b) := fun _ => feed _ _
theorem collectFrameOk (inst b : Byte) : Statement (.collectFrameOk inst b) := fun _ => feed _ _
theorem collectFrameBad (inst b : Byte) : Statement (.collectFrameBad inst b) := fun _ => feed _ _

end Sys2Proof.Laws.EncodeLength
end

