-- ==== Sys2Proof/Laws/Run.lean ====
section
/-! SUPPORT. Many bytes: a byte sequence run on the registers of one live instance, and what `feed` makes of it. -/

namespace Sys2Proof.Machine

/-- The registers after a byte sequence, and what each byte drove. -/
def runBytes (p : Parser) : List Byte → Parser × List (Event × Option (List Byte))
  | [] => (p, [])
  | b :: bs =>
    let r := runBytes (consume p b).parser bs
    (r.1, ((consume p b).event, (consume p b).emitted) :: r.2)

theorem runBytes_cons (p : Parser) (b : Byte) (bs : List Byte) :
    runBytes p (b :: bs) = ((runBytes (consume p b).parser bs).1,
      ((consume p b).event, (consume p b).emitted) :: (runBytes (consume p b).parser bs).2) := rfl

theorem runBytes_append (xs ys : List Byte) (p : Parser) :
    runBytes p (xs ++ ys) =
      ((runBytes (runBytes p xs).1 ys).1, (runBytes p xs).2 ++ (runBytes (runBytes p xs).1 ys).2) := by
  induction xs generalizing p with
  | nil => simp [runBytes]
  | cons b xs ih => simp [runBytes, ih]

theorem feedOutputs_cons_live {s : State} {inst b : Byte} {p : Parser} (h : s.Live inst p) (bs : List Byte) :
    feedOutputs inst (b :: bs) s = ⟨some (consume p b).event, (consume p b).emitted, none⟩ ::
      feedOutputs inst bs (s.commit inst (consume p b)) := by
  simp [feedOutputs, feedByte_live (feedable_of_live h)]

/-- `feed` on a live instance is the run of its registers, and touches nothing else. -/
theorem feed_live (bs : List Byte) {s : State} {inst : Byte} {p : Parser} (h : s.Live inst p) :
    (feed inst bs s).1.parsers = s.parsers.set inst.toNat (runBytes p bs).1 ∧
    (feed inst bs s).2 = (runBytes p bs).2.filterMap (·.2) ∧
    feedOutputs inst bs s = (runBytes p bs).2.map (fun x => ⟨some x.1, x.2, none⟩) ∧
    (feed inst bs s).1.Live inst (runBytes p bs).1 ∧
    (feed inst bs s).1.refusalMark = s.refusalMark ∧ (feed inst bs s).1.pending = s.pending := by
  induction bs generalizing s p with
  | nil => simp [feed, runBytes, feedOutputs, set_same h.1, h]
  | cons b bs ih =>
    obtain ⟨h1, h2, h3, h4, h5, h6⟩ := ih (live_commit (b := b) h)
    rw [feed_cons_live h, feedOutputs_cons_live h]
    refine ⟨by rw [h1]; simp [runBytes], ?_, by rw [h3]; rfl, h4, h5, h6⟩
    rw [h2]
    cases hx : (consume p b).emitted <;> simp [runBytes, hx]

/-- Collecting as many bytes as the countdown allows. -/
theorem runBytes_collect (xs : List Byte) {p : Parser} (hp : p.phase = .collect)
    (hl : xs.length ≤ p.remainingLength.toNat) :
    runBytes p xs =
      ({ p with
          payload := p.payload ++ xs
          runningChecksum := p.runningChecksum + sum8 xs
          remainingLength := p.remainingLength - BitVec.ofNat 8 xs.length },
        xs.map fun _ => (.payload, none)) := by
  induction xs generalizing p with
  | nil => simp [runBytes]
  | cons b xs ih =>
    have hr : p.remainingLength ≠ 0x00#8 := by intro e; rw [e] at hl; simp at hl
    have hlt := p.remainingLength.isLt
    have h1 : (p.remainingLength - 1#8).toNat = p.remainingLength.toNat - 1 := by
      rw [BitVec.toNat_sub]; simp at hl ⊢; omega
    have hn := ih (p := (rowCollectPayload p b).parser) hp
      (by simp only [rowCollectPayload]; rw [h1]; simp at hl; omega)
    rw [runBytes_cons, consume_collect_payload hp hr, hn]
    simp only [rowCollectPayload, payloadAppend, List.append_assoc, List.cons_append, List.nil_append, sum8_cons,
      List.map_cons, Prod.mk.injEq, Parser.mk.injEq, and_true, true_and, BitVec.add_assoc]
    apply BitVec.eq_of_toNat_eq
    simp at hl
    simp only [BitVec.toNat_sub, BitVec.toNat_ofNat, List.length_cons]
    omega

/-- A whole frame from SeekHeader: marker, length L, L bytes, one more byte. -/
theorem runBytes_frame {p : Parser} (hp : p.phase = .seekHeader) (L : Byte) (xs : List Byte) (hl : xs.length = L.toNat)
    (c : Byte) :
    runBytes p ([0x7E#8, 0x00#8, L] ++ xs ++ [c]) =
      (p.toSeek, [(.header, none), (.lenHi, none), (.lenLo, none)] ++ xs.map (fun _ => (.payload, none)) ++
        [if sum8 xs + c = 0xFF#8 then (.frameOk, some xs) else (.frameBad, none)]) := by
  have e1 : runBytes p [0x7E#8, 0x00#8, L] =
      ({ p with phase := .collect, remainingLength := L, runningChecksum := 0x00#8, payload := [] },
        [(.header, none), (.lenHi, none), (.lenLo, none)]) := by
    simp [runBytes, consume_seekHeader hp, rowSeekHeaderHeader, consume_expectLengthHigh, rowExpectLengthHighZero,
      consume_readLengthLow, rowReadLengthLowLength]
  have hz : L - BitVec.ofNat 8 xs.length = 0x00#8 := by rw [hl]; simp
  rw [List.append_assoc, runBytes_append, e1, runBytes_append, runBytes_collect xs rfl (by simp [hl])]
  simp only [hz, runBytes, List.nil_append, BitVec.zero_add]
  rw [consume_collect_end rfl rfl]
  simp only
  split <;> simp [rowCollectFrameOk, rowCollectFrameBad, Parser.toSeek]

/-- A FEED_BYTE request decodes to itself. -/
theorem decode_encodeFeed (inst b : Byte) : decode (encodeFeed inst b) = .ok (.feedByte inst b) := by
  simp only [encodeFeed, decode, decodeBody, not_reserved_absent (op := 0b010#3) (by decide), opField_headerByte]
  rfl

end Sys2Proof.Machine
end

