-- ==== Sys2Proof/Machine/Text.lean ====
section
/-! DEFINITION. The spec's textual syntax for operations (spec/30_encoding.md R75, R76): the line that stands for an
operation. It is notation: no step reads it. Log entry 22. -/

namespace Sys2Proof.Machine

/-- A hexadecimal digit. -/
def hexDigit (n : Nat) : Char := "0123456789ABCDEF".toList.getD n '0'

/-- `k` hexadecimal digits, most significant first. -/
def hexDigits (k v : Nat) : String :=
  (List.range k).foldl (fun t i => t.push (hexDigit (v / 16 ^ (k - 1 - i) % 16))) ""

/-- A number, in hexadecimal with `0x` (R75). -/
def numberText {w : Nat} (v : BitVec w) : String := "0x" ++ hexDigits (w / 4) v.toNat

/-- Two-digit bytes, separated by spaces (R75). -/
def bytesText (bs : List Byte) : String := " ".intercalate (bs.map fun b => hexDigits 2 b.toNat)

/-- An optional operand with the space before it, or nothing where it is absent (R75). -/
def optionText {w : Nat} (key : String) : Option (BitVec w) → String
  | none => ""
  | some v => " " ++ key ++ "=" ++ numberText v

/-- `[fid=..] [addr=..] [net=..]`. -/
def targetText (t : Target) : String :=
  optionText "fid" t.frameId ++ optionText "addr" t.address ++ optionText "net" t.network

/-- The line of an operation; none for a reserved request and for the rows of the byte decode table, which have no line
of their own. A name is written as a byte list, which R75 admits for every name. -/
def instrText : Instr → Option String
  | .reset inst => some ("reset " ++ numberText inst)
  | .close inst => some ("close " ++ numberText inst)
  | .feedByte inst b => some ("feed_byte " ++ numberText inst ++ ", " ++ numberText b)
  | .compose o t n d =>
    some ("compose opts=" ++ numberText o ++ targetText t ++ " name=[" ++ bytesText n ++ "] data=" ++ numberText d)
  | .checksumOf span => some ("checksum_of " ++ bytesText span)
  | .buildDigitalOutput p on t =>
    some ("build_digital_output_frame pin=" ++ numberText p ++ (if on == 0x00#8 then " off" else " on") ++ targetText t)
  | .buildPinConfig p c t =>
    some ("build_pin_config_frame pin=" ++ numberText p ++ " cfg=" ++ numberText c ++ targetText t)
  | .reserved _ => none
  | .seekHeaderHeader _ => none
  | .seekHeaderDiscard _ _ => none
  | .expectLengthHighZero _ => none
  | .expectLengthHighResync _ _ => none
  | .readLengthLowLength _ _ => none
  | .collectPayload _ _ => none
  | .collectFrameOk _ _ => none
  | .collectFrameBad _ _ => none

/-- The line of the pseudo-operation `feed` (R76). -/
def feedText (inst : Byte) (bs : List Byte) : String := "feed " ++ numberText inst ++ ", " ++ bytesText bs

end Sys2Proof.Machine
end

