-- ==== Sys2Proof/Tests/Slice0.lean ====
section
/-! SUPPORT. The model's own tests. Every expected result is taken from spec/: the worked examples and the vectors of
spec/95_test_vectors.md (V-…, W1), or the rule that is named. Then, for every statement with hypotheses, a state and operands
that meet all of them (`witness_…`). -/

namespace Sys2Proof.Tests

open Sys2Proof.Machine

/-- The next state, if there is one. -/
def after : Host.Outcome State Fault Refusal → Option State
  | .next t => some t
  | .fault _ => none
  | .refused _ => none

/-- What a next state's step drove. -/
def outputs (o : Host.Outcome State Fault Refusal) : Option Output := (after o).map State.out

/-- The registers of instance 0 in a next state. -/
def regs (o : Host.Outcome State Fault Refusal) : Option Parser := (after o).bind fun t => t.parser? 0

/-- Two instances, the first with registers `p`, nothing driven and nothing to come. -/
def st (p : Parser) : State := { parsers := [p, Parser.initial], refusalMark := false, out := Output.none, pending := [] }

/-- An open instance without a fault. -/
def pr (phase : Phase) (rl rc : Byte) (payload : List Byte) : Parser :=
  { phase := phase, remainingLength := rl, runningChecksum := rc, payload := payload, isOpen := true, fault := none }

def closed : Parser := { Parser.initial with isOpen := false }

/-- An instance with STATE_DESTROYED recorded that a hardware reset has opened again. -/
def faulted : Parser := { Parser.initial with fault := some .stateDestroyed }

def absent : Target := ⟨none, none, none⟩

/-- The 20 bytes of W1. -/
def w1 : List Byte :=
  [0x7E#8, 0x00#8, 0x10#8, 0x17#8, 0x00#8, 0x00#8, 0x00#8, 0x00#8, 0x00#8, 0x00#8, 0x00#8, 0xFF#8, 0xFF#8, 0xFF#8, 0xFE#8,
   0x02#8, 0x44#8, 0x30#8, 0x05#8, 0x72#8]

/-! ### Well-formedness: an ill-formed term for each check -/

/-- name_len is 8 bits (R70). -/
theorem test_wf_refuses_name_of_256 : (Instr.compose 0 absent (List.replicate 256 0) 0).wellFormed = false := by
  rw [Instr.wellFormed, List.length_replicate]; decide

/-- span_len is 32 bits (R70). -/
theorem test_wf_refuses_span_of_2_pow_32 (span : List Byte) (h : span.length = 2 ^ 32) :
    (Instr.checksumOf span).wellFormed = false := by simp [Instr.wellFormed, h]

/-- 0x03 is COMPOSE, not reserved (R71). -/
theorem test_wf_refuses_reserved_of_a_used_header : (Instr.reserved 0x03#8).wellFormed = false := by decide

/-- R72: the discard row matches any byte but 0x7E. -/
theorem test_wf_refuses_discard_of_the_marker : (Instr.seekHeaderDiscard 0 0x7E#8).wellFormed = false := by decide

/-- R72: the resync row matches any byte but 0x00. -/
theorem test_wf_refuses_resync_of_zero : (Instr.expectLengthHighResync 0 0x00#8).wellFormed = false := by decide

/-! ### Decoding: words written out from R69, R70 and R72 -/

/-- V-R1. -/
theorem test_decode_reset : (decode [0b00000000#8, 0x00#8]).toOption = some (.reset 0) := by decide

/-- V-R2. -/
theorem test_decode_close : (decode [0b00000001#8, 0x00#8]).toOption = some (.close 0) := by decide

/-- V-R3. -/
theorem test_decode_feedByte : (decode [0b00000010#8, 0x00#8, 0x7E#8]).toOption = some (.feedByte 0 0x7E#8) := by decide

/-- V-R4. -/
theorem test_decode_compose : (decode [0b00000011#8, 0x02#8, 0x02#8, 0x44#8, 0x30#8, 0x05#8]).toOption =
    some (.compose 0x02#8 absent [0x44#8, 0x30#8] 0x05#8) := by decide

/-- V-C2 with all three presence bits, n in bit 5, a in bit 4, f in bit 3. -/
theorem test_decode_compose_operands :
    (decode [0b00111011#8, 0x00#8, 0x01#8, 0x00#8, 0x13#8, 0xA2#8, 0x00#8, 0x40#8, 0xA1#8, 0xB2#8, 0xC3#8, 0x12#8, 0x34#8,
      0x02#8, 0x44#8, 0x33#8, 0x04#8]).toOption =
    some (.compose 0x00#8 ⟨some 0x01#8, some 0x0013A20040A1B2C3#64, some 0x1234#16⟩ [0x44#8, 0x33#8] 0x04#8) := by decide

/-- V-R5. -/
theorem test_decode_checksumOf : (decode [0b00000100#8, 0x00#8, 0x00#8, 0x00#8, 0x01#8, 0x17#8]).toOption =
    some (.checksumOf [0x17#8]) := by decide

/-- V-R6. -/
theorem test_decode_buildDigitalOutput : (decode [0b00000101#8, 0x03#8, 0x01#8]).toOption =
    some (.buildDigitalOutput 3 1 absent) := by decide

/-- V-R7, with the network address alone present. -/
theorem test_decode_buildPinConfig : (decode [0b00100110#8, 0x07#8, 0x04#8, 0x12#8, 0x34#8]).toOption =
    some (.buildPinConfig 7 4 ⟨none, none, some 0x1234#16⟩) := by decide

/-- V-R8, V-R9 and V-R10. -/
theorem test_decode_reserved : (decode [0x07#8]).toOption = some (.reserved 0x07#8) ∧
    (decode [0x0A#8, 0x00#8, 0x7E#8]).toOption = some (.reserved 0x0A#8) ∧
    (decode [0x43#8, 0x01#8]).toOption = some (.reserved 0x43#8) := by decide

/-- R72, SeekHeader. -/
theorem test_decodeByte_seekHeader :
    decodeByte .seekHeader 0x00#8 0x00#8 0 0b01111110#8 = .seekHeaderHeader 0 ∧
    decodeByte .seekHeader 0x00#8 0x00#8 0 0x00#8 = .seekHeaderDiscard 0 0x00#8 := by decide

/-- R72, ExpectLengthHigh. -/
theorem test_decodeByte_expectLengthHigh :
    decodeByte .expectLengthHigh 0x00#8 0x00#8 0 0b00000000#8 = .expectLengthHighZero 0 ∧
    decodeByte .expectLengthHigh 0x00#8 0x00#8 0 0x7E#8 = .expectLengthHighResync 0 0x7E#8 := by decide

/-- R72, ReadLengthLow: any byte. -/
theorem test_decodeByte_readLengthLow :
    decodeByte .readLengthLow 0x00#8 0x00#8 0 0x7E#8 = .readLengthLowLength 0 0x7E#8 := by decide

/-- R72, Collect; the accumulator 0x8D and the checksum bytes are those of V-P1 and V-P5. -/
theorem test_decodeByte_collect :
    decodeByte .collect 0x01#8 0x8D#8 0 0x72#8 = .collectPayload 0 0x72#8 ∧
    decodeByte .collect 0x00#8 0x8D#8 0 0x72#8 = .collectFrameOk 0 0x72#8 ∧
    decodeByte .collect 0x00#8 0x8D#8 0 0x73#8 = .collectFrameBad 0 0x73#8 := by decide

/-- The encoder, against V-R4 and the first request of program 4. -/
theorem test_encode : encode (.compose 0x02#8 absent [0x44#8, 0x30#8] 0x05#8) = [0x03#8, 0x02#8, 0x02#8, 0x44#8, 0x30#8, 0x05#8] ∧
    encode (.buildDigitalOutput 3 1 ⟨some 0x01#8, some 0x0013A20040A1B2C3#64, some 0x1234#16⟩) =
      [0x3D#8, 0x03#8, 0x01#8, 0x01#8, 0x00#8, 0x13#8, 0xA2#8, 0x00#8, 0x40#8, 0xA1#8, 0xB2#8, 0xC3#8, 0x12#8, 0x34#8] := by
  decide

/-- The words of spec/opcode_table.json that tell their row apart: a header with zero operands, and the marker byte. -/
theorem test_table_words :
    decodeTableWord 8 0x00 = some (.reset 0) ∧ decodeTableWord 8 0x01 = some (.close 0) ∧
    decodeTableWord 8 0x02 = some (.feedByte 0 0) ∧ decodeTableWord 8 0x03 = some (.compose 0 absent [] 0) ∧
    decodeTableWord 8 0x04 = some (.checksumOf []) ∧ decodeTableWord 8 0x05 = some (.buildDigitalOutput 0 0 absent) ∧
    decodeTableWord 8 0x06 = some (.buildPinConfig 0 0 absent) ∧ decodeTableWord 8 0x07 = some (.reserved 0x07#8) ∧
    decodeTableWord 8 0x7E = some (.seekHeaderHeader 0) := by decide

/-- The word presented after reset is what the next step runs. -/
theorem test_step_runs_the_word : step (State.reset.withFetchWord 8 0x7E) = exec (.feedByte 0 0x7E#8) State.reset := rfl

/-! ### RESET, CLOSE, FEED_BYTE, refusals -/

/-- The example of R121. -/
theorem test_reset : after (exec (.reset 0) (st (pr .collect 0x03#8 0x17#8 [0x17#8]))) = some (st Parser.initial) := by decide

/-- RESET opens a closed instance (C6); after STATE_DESTROYED neither RESET nor CLOSE is a step of it (R169). -/
theorem test_reset_closed : regs (exec (.reset 0) (st closed)) = some Parser.initial ∧
    after (exec (.reset 0) (st { closed with fault := some .stateDestroyed })) =
      some (st { closed with fault := some .stateDestroyed }) ∧
    after (exec (.close 0) (st faulted)) = some (st faulted) := by decide

/-- R122: only `open` is written. -/
theorem test_close : regs (exec (.close 0) (st (pr .collect 0x0B#8 0x17#8 [0x17#8]))) =
    some { pr .collect 0x0B#8 0x17#8 [0x17#8] with isOpen := false } := by decide

/-- V-P13. -/
theorem test_feed_closed : after (exec (.feedByte 0 0x7E#8) (st closed)) =
    some { st { closed with fault := some .stateDestroyed } with
      out := ⟨none, none, some (.raised (.stateDestroyed 0 0x7E#8))⟩ } := by decide

/-- The example of R123. -/
theorem test_feedByte : after (exec (.feedByte 0 0x7E#8) (st Parser.initial)) =
    some { st (pr .expectLengthHigh 0x00#8 0x00#8 []) with out := ⟨some .header, none, none⟩ } := by decide

/-- V-R11: N_STREAMS = 2, instance 5. -/
theorem test_no_such_instance : after (exec (.feedByte 5 0x7E#8) (st Parser.initial)) =
    some { st Parser.initial with refusalMark := true, out := ⟨none, none, some (.raised (.noSuchInstance 5))⟩ } := by decide

/-- V-R8 (R163). -/
theorem test_reserved : after (exec (.reserved 0x07#8) (st Parser.initial)) =
    some { st Parser.initial with refusalMark := true, out := ⟨none, none, some (.raised (.reservedEncoding 0x07#8))⟩ } := by
  decide

/-! ### The codec -/

/-- V-C1, W1. -/
theorem test_compose_w1 : outputs (exec (.compose 0x02#8 absent [0x44#8, 0x30#8] 0x05#8) (st Parser.initial)) =
    some ⟨none, none, some (.frame w1)⟩ := by decide

/-- V-C2. -/
theorem test_compose_operands :
    outputs (exec (.compose 0x00#8 ⟨some 0x01#8, some 0x0013A20040A1B2C3#64, some 0x1234#16⟩ [0x44#8, 0x33#8] 0x04#8)
      (st Parser.initial)) =
    some ⟨none, none, some (.frame [0x7E#8, 0x00#8, 0x10#8, 0x17#8, 0x01#8, 0x00#8, 0x13#8, 0xA2#8, 0x00#8, 0x40#8, 0xA1#8,
      0xB2#8, 0xC3#8, 0x12#8, 0x34#8, 0x00#8, 0x44#8, 0x33#8, 0x04#8, 0x1B#8])⟩ := by decide

/-- V-C7 and V-C9. -/
theorem test_compose_name_length :
    outputs (exec (.compose 0x02#8 absent [0x44#8] 0x05#8) (st Parser.initial)) =
      some ⟨none, none, some (.raised (.cmdNameLength 1))⟩ ∧
    outputs (exec (.compose 0x02#8 absent [0x44#8, 0x30#8, 0x30#8] 0x05#8) (st Parser.initial)) =
      some ⟨none, none, some (.raised (.cmdNameLength 3))⟩ := by decide

/-- V-S1 and V-S4. -/
theorem test_checksumOf_wraps : outputs (exec (.checksumOf []) (st Parser.initial)) = some ⟨none, none, some (.checksum 0xFF#8)⟩ ∧
    outputs (exec (.checksumOf [0x80#8, 0x80#8]) (st Parser.initial)) = some ⟨none, none, some (.checksum 0xFF#8)⟩ := by decide

/-- V-S7. -/
theorem test_checksumOf_w1 : outputs (exec (.checksumOf [0x17#8, 0x00#8, 0x00#8, 0x00#8, 0x00#8, 0x00#8, 0x00#8, 0x00#8,
    0xFF#8, 0xFF#8, 0xFF#8, 0xFE#8, 0x02#8, 0x44#8, 0x30#8, 0x05#8]) (st Parser.initial)) =
    some ⟨none, none, some (.checksum 0x72#8)⟩ := by decide

/-- V-B4. -/
theorem test_buildDigitalOutput_on : outputs (exec (.buildDigitalOutput 3 1 absent) (st Parser.initial)) =
    some ⟨none, none, some (.frame [0x7E#8, 0x00#8, 0x10#8, 0x17#8, 0x00#8, 0x00#8, 0x00#8, 0x00#8, 0x00#8, 0x00#8, 0x00#8,
      0xFF#8, 0xFF#8, 0xFF#8, 0xFE#8, 0x02#8, 0x44#8, 0x33#8, 0x05#8, 0x6F#8])⟩ := by decide

/-- V-B10. -/
theorem test_buildDigitalOutput_pin8 : outputs (exec (.buildDigitalOutput 8 1 absent) (st Parser.initial)) =
    some ⟨none, none, some (.raised (.pinRange 8))⟩ := by decide

/-- V-B11. -/
theorem test_buildPinConfig : outputs (exec (.buildPinConfig 7 4 absent) (st Parser.initial)) =
    some ⟨none, none, some (.frame [0x7E#8, 0x00#8, 0x10#8, 0x17#8, 0x00#8, 0x00#8, 0x00#8, 0x00#8, 0x00#8, 0x00#8, 0x00#8,
      0xFF#8, 0xFF#8, 0xFF#8, 0xFE#8, 0x02#8, 0x44#8, 0x37#8, 0x04#8, 0x6C#8])⟩ := by decide

/-- V-B13. -/
theorem test_buildPinConfig_pin255 : outputs (exec (.buildPinConfig 255 0 absent) (st Parser.initial)) =
    some ⟨none, none, some (.raised (.pinRange 255))⟩ := by decide

/-! ### The rows of the byte decode table -/

/-- V-P1, first byte. -/
theorem test_seekHeaderHeader : after (exec (.seekHeaderHeader 0) (st Parser.initial)) =
    some { st (pr .expectLengthHigh 0x00#8 0x00#8 []) with out := ⟨some .header, none, none⟩ } := by decide

/-- V-P8, second byte. -/
theorem test_seekHeaderDiscard : after (exec (.seekHeaderDiscard 0 0xFF#8) (st Parser.initial)) =
    some { st Parser.initial with out := ⟨some .discard, none, none⟩ } := by decide

/-- V-P1, second byte. -/
theorem test_expectLengthHighZero : after (exec (.expectLengthHighZero 0) (st (pr .expectLengthHigh 0x00#8 0x00#8 []))) =
    some { st (pr .readLengthLow 0x00#8 0x00#8 []) with out := ⟨some .lenHi, none, none⟩ } := by decide

/-- V-P7, second byte: a marker is not looked at again. -/
theorem test_expectLengthHighResync :
    after (exec (.expectLengthHighResync 0 0x7E#8) (st (pr .expectLengthHigh 0x00#8 0x00#8 []))) =
    some { st Parser.initial with out := ⟨some .resync, none, none⟩ } := by decide

/-- V-P1, third byte. -/
theorem test_readLengthLowLength :
    after (exec (.readLengthLowLength 0 0x10#8) (st (pr .readLengthLow 0x00#8 0x00#8 []))) =
    some { st (pr .collect 0x10#8 0x00#8 []) with out := ⟨some .lenLo, none, none⟩ } := by decide

/-- V-P18: the sum wraps. -/
theorem test_collectPayload : after (exec (.collectPayload 0 0x20#8) (st (pr .collect 0x01#8 0xF0#8 [0xF0#8]))) =
    some { st (pr .collect 0x00#8 0x10#8 [0xF0#8, 0x20#8]) with out := ⟨some .payload, none, none⟩ } := by decide

/-- V-P8, last byte. -/
theorem test_collectFrameOk : after (exec (.collectFrameOk 0 0x81#8) (st (pr .collect 0x00#8 0x7E#8 [0x7E#8]))) =
    some { st Parser.initial with out := ⟨some .frameOk, some [0x7E#8], none⟩ } := by decide

/-- V-P4, last byte: valid only under the reading of C1 that the spec rejects. -/
theorem test_collectFrameBad : after (exec (.collectFrameBad 0 0x00#8) (st (pr .collect 0x00#8 0x00#8 []))) =
    some { st Parser.initial with out := ⟨some .frameBad, none, none⟩ } := by decide

/-- Program 4's first line, in the syntax of R75. -/
theorem test_text : instrText (.buildDigitalOutput 3 1 ⟨some 0x01#8, some 0x0013A20040A1B2C3#64, some 0x1234#16⟩) =
    some "build_digital_output_frame pin=0x03 on fid=0x01 addr=0x0013A20040A1B2C3 net=0x1234" := by decide

/-! ### Witnesses: states and operands that meet the hypotheses of each statement, all of them together -/

/-- Presented the bytes `bs`. -/
def given (s : State) (bs : List Byte) : State := { s with pending := [.request bs] }

def seeking : Parser := Parser.initial
def expecting : Parser := pr .expectLengthHigh 0x00#8 0x00#8 []
def reading : Parser := pr .readLengthLow 0x00#8 0x00#8 []
def collecting : Parser := pr .collect 0xFE#8 0x17#8 [0x17#8]
def checking : Parser := pr .collect 0x00#8 0xFF#8 [0xFF#8]

theorem live_st {p : Parser} (ho : p.isOpen = true) (hf : p.fault = none) : (st p).Live 0 p := ⟨rfl, ho, hf⟩

theorem inv_st {p : Parser} (h : p.Inv) : (st p).Inv := by
  intro q hq
  rcases List.mem_cons.mp hq with rfl | h2
  · exact h
  · rw [List.mem_singleton.mp h2]; exact ⟨rfl, rfl, rfl⟩

theorem inv_collecting : collecting.Inv := ⟨rfl, by decide⟩
theorem inv_checking : checking.Inv := ⟨rfl, by decide⟩

theorem witness_ResetStateIsInitial : (0#8 : Byte).toNat < Config.nStreams := Nat.succ_pos _

theorem witness_StepRunsTheDecodedRequest : (given (st seeking) [0x00#8, 0x00#8]).pending = .request [0x00#8, 0x00#8] :: [] ∧
    decode [0x00#8, 0x00#8] = .ok (.reset 0) := ⟨rfl, rfl⟩

theorem witness_StepWithNothingPresentedChangesNoRegister : (st collecting).pending = [] := rfl

theorem witness_HardwareResetReinitialisesEveryInstance :
    let s : State := { st { faulted with isOpen := false } with pending := [.hardwareReset] }
    s.pending = .hardwareReset :: [] ∧ s.parser? 0 = some { faulted with isOpen := false } := ⟨rfl, rfl⟩

theorem witness_BytesOfNoRequestAreRefusedByName : (given (st seeking) []).pending = .request [] :: [] ∧
    decode [] = .error .empty ∧ decode [0x02#8, 0x00#8] = .error .truncated ∧
    decode [0x00#8, 0x00#8, 0x00#8] = .error .trailing := ⟨rfl, rfl, rfl, rfl⟩

theorem witness_EverySpellableRequestIsServed :
    let i : Instr := .compose 0x02#8 absent (List.replicate 255 0x44#8) 0x05#8
    i.wellFormed = true ∧ (given (st seeking) (encode i)).pending = .request (encode i) :: [] := by
  refine ⟨?_, rfl⟩
  rw [Instr.wellFormed, List.length_replicate]; decide

theorem witness_StepKeepsTheRegisterInvariant : (given (st collecting) [0x02#8, 0x00#8, 0xFF#8]).Inv ∧
    ∃ t, step (given (st collecting) [0x02#8, 0x00#8, 0xFF#8]) = .next t :=
  ⟨inv_st inv_collecting, _, rfl⟩

theorem witness_ReachableStatesMeetTheRegisterInvariant :
    ∃ t, step { State.reset with pending := [.request [0x02#8, 0x00#8, 0x7E#8]] } = .next t ∧ Reachable t :=
  ⟨_, rfl, .step (.reset [.request [0x02#8, 0x00#8, 0x7E#8]]) rfl⟩

theorem witness_StepNeverClearsARecordedFault : ∃ t, step (given (st faulted) [0x00#8, 0x00#8]) = .next t ∧
    (given (st faulted) [0x00#8, 0x00#8]).parser? 0 = some faulted ∧ faulted.fault = some .stateDestroyed :=
  ⟨_, rfl, rfl, rfl⟩

theorem witness_StepKeepsTheRefusalMarkAndTheInstances :
    ∃ t, step { given (st seeking) [0x00#8, 0x00#8] with refusalMark := true } = .next t := ⟨_, rfl⟩

theorem witness_OnlyACleanStateLeadsToACleanState :
    ∃ t, step (given (st collecting) [0x02#8, 0x00#8, 0xFF#8]) = .next t ∧ t.Clean := by
  refine ⟨_, rfl, ?_, rfl⟩
  intro p hp
  rcases List.mem_cons.mp hp with rfl | h2
  · rfl
  · rw [List.mem_singleton.mp h2]; rfl

/-- A contract violation, the fault and both refusals. -/
theorem witness_ExceptionalOutcomesArePrecise :
    (∃ t, exec (.compose 0x02#8 absent [0x44#8] 0x05#8) (st seeking) = .next t ∧
      t.out.reply = some (.raised (.cmdNameLength 1))) ∧
    (∃ t, exec (.buildPinConfig 8 0 absent) (st seeking) = .next t ∧ t.out.reply = some (.raised (.pinRange 8))) ∧
    (∃ t, exec (.feedByte 0 0x7E#8) (st closed) = .next t ∧ t.out.reply = some (.raised (.stateDestroyed 0 0x7E#8))) ∧
    (∃ t, exec (.reserved 0x07#8) (st seeking) = .next t ∧ t.out.reply = some (.raised (.reservedEncoding 0x07#8))) ∧
    (∃ t, exec (.close 2) (st seeking) = .next t ∧ t.out.reply = some (.raised (.noSuchInstance 2))) :=
  ⟨⟨_, rfl, rfl⟩, ⟨_, rfl, rfl⟩, ⟨_, rfl, rfl⟩, ⟨_, rfl, rfl⟩, ⟨_, rfl, rfl⟩⟩

/-- A request at the longest name, and a row. -/
theorem witness_DecodeReadsBackEveryEncodedRequest :
    ((Instr.compose 0xFF#8 ⟨some 0xFF#8, none, some 0xFFFF#16⟩ (List.replicate 255 0x7E#8) 0xFF#8).wellFormed = true ∧
      (Instr.compose 0xFF#8 ⟨some 0xFF#8, none, some 0xFFFF#16⟩ (List.replicate 255 0x7E#8) 0xFF#8).isRequest = true) ∧
    ((Instr.seekHeaderDiscard 0 0xFF#8).wellFormed = true ∧
      (Instr.seekHeaderDiscard 0 0xFF#8).carriedByte = some (0, 0xFF#8)) := by
  refine ⟨⟨?_, rfl⟩, by decide⟩
  rw [Instr.wellFormed, List.length_replicate]; decide

theorem witness_EveryDecodedRequestHasOneSpelling : decode [0x05#8, 0x03#8, 0x01#8] = .ok (.buildDigitalOutput 3 1 absent) ∧
    ∀ h, Instr.buildDigitalOutput 3 1 absent ≠ .reserved h := ⟨rfl, fun _ => nofun⟩

/-- Each way to be reserved, and a header that is not. -/
theorem witness_ReservedHeadersAreExactlyThese : (0x07#8).toNat % 8 = 7 ∧ 64 ≤ (0x40#8).toNat ∧
    ((0x0C#8).toNat % 8 = 4 ∧ (0x0C#8).toNat / 8 % 8 ≠ 0) ∧
    ¬ ((0x3B#8).toNat % 8 = 7 ∨ 64 ≤ (0x3B#8).toNat ∨
      (((0x3B#8).toNat % 8 = 0 ∨ (0x3B#8).toNat % 8 = 1 ∨ (0x3B#8).toNat % 8 = 2 ∨ (0x3B#8).toNat % 8 = 4) ∧
        (0x3B#8).toNat / 8 % 8 ≠ 0)) := by decide

/-- The first instance number that does not exist, in each form. -/
theorem witness_MissingInstanceIsRefused : (st seeking).parsers.length ≤ (2#8 : Byte).toNat ∧
    (∃ b, Instr.feedByte 2 0x7E#8 = .feedByte 2 b) ∧ (∃ b, (Instr.seekHeaderHeader 2).carriedByte = some (2, b)) :=
  ⟨by decide, ⟨_, rfl⟩, ⟨_, rfl⟩⟩

/-- A selected row, and another row of the same byte. -/
theorem witness_ByteDecodeTableSelectsExactlyOneRow : (st checking).Live 0 checking ∧
    (Instr.collectFrameBad 0 0x00#8).wellFormed = true ∧ (Instr.collectFrameBad 0 0x00#8).carriedByte = some (0, 0x00#8) ∧
    Instr.collectFrameBad 0 0x00#8 ≠ decodeByte checking.phase checking.remainingLength checking.runningChecksum 0 0x00#8 :=
  ⟨live_st rfl rfl, by decide, by decide, by decide⟩

theorem witness_PresentedTableWordRuns :
    (decodeTableWord 8 0x02 = some (.feedByte 0 0) ∧ (Instr.feedByte 0 0).isRequest = true) ∧
    (decodeTableWord 8 0x7E = some (.seekHeaderHeader 0) ∧ (Instr.seekHeaderHeader 0).isRequest = false ∧
      (st seeking).Live 0 seeking ∧ seeking.phase = .seekHeader) :=
  ⟨by decide, by decide, by decide, live_st rfl rfl, rfl⟩

/-- An open instance, a closed one, and one with a fault recorded. -/
theorem witness_ResetRecreatesTheInstance : ((st collecting).parser? 0 = some collecting ∧ collecting.fault = none) ∧
    ((st closed).parser? 0 = some closed ∧ closed.fault = none) ∧
    ((st faulted).parser? 0 = some faulted ∧ faulted.fault = some .stateDestroyed) := ⟨⟨rfl, rfl⟩, ⟨rfl, rfl⟩, rfl, rfl⟩

theorem witness_CloseDestroysTheInstance : ((st collecting).parser? 0 = some collecting ∧ collecting.fault = none) ∧
    ((st closed).parser? 0 = some closed ∧ closed.fault = none) ∧
    ((st faulted).parser? 0 = some faulted ∧ faulted.fault = some .stateDestroyed) := ⟨⟨rfl, rfl⟩, ⟨rfl, rfl⟩, rfl, rfl⟩

theorem witness_FeedingAClosedInstanceRecordsStateDestroyed : (st closed).parser? 0 = some closed ∧ closed.isOpen = false ∧
    (Instr.collectPayload 0 0x7E#8).carriedByte = some (0, 0x7E#8) := ⟨rfl, rfl, rfl⟩

theorem witness_FaultedInstanceTakesNoByte : (st faulted).parser? 0 = some faulted ∧ faulted.fault = some .stateDestroyed ∧
    faulted.isOpen = true := ⟨rfl, rfl, rfl⟩

/-- RESET and a byte, and an operation of another instance. -/
theorem witness_FaultedInstanceTakesNoFurtherStep : (∃ t, exec (.reset 0) (st faulted) = .next t) ∧
    (∃ t, exec (.feedByte 0 0x7E#8) (st faulted) = .next t) ∧ (∃ t, exec (.close 1) (st faulted) = .next t) ∧
    (st faulted).parser? 0 = some faulted ∧ faulted.fault = some .stateDestroyed :=
  ⟨⟨_, rfl⟩, ⟨_, rfl⟩, ⟨_, rfl⟩, rfl, rfl⟩

theorem witness_SeekHeaderScansForTheMarker : (st seeking).Live 0 seeking ∧ seeking.phase = .seekHeader ∧ (0x7F#8 : Byte) ≠ 0x7E#8 :=
  ⟨live_st rfl rfl, rfl, by decide⟩

theorem witness_ZeroLengthHighByteMovesOn : (st expecting).Live 0 expecting ∧ expecting.phase = .expectLengthHigh :=
  ⟨live_st rfl rfl, rfl⟩

theorem witness_NonzeroLengthHighByteResyncs : (st expecting).Live 0 expecting ∧ expecting.phase = .expectLengthHigh ∧
    (0x01#8 : Byte) ≠ 0x00#8 := ⟨live_st rfl rfl, rfl, by decide⟩

theorem witness_LengthLowByteStartsCollecting : (st reading).Live 0 reading ∧ reading.phase = .readLengthLow :=
  ⟨live_st rfl rfl, rfl⟩

/-- With one byte remaining. -/
theorem witness_PayloadByteIsCollectedAndSummed :
    let p := pr .collect 0x01#8 0xF0#8 [0xF0#8]
    (st p).Live 0 p ∧ p.phase = .collect ∧ 0 < p.remainingLength.toNat := ⟨live_st rfl rfl, rfl, by decide⟩

theorem witness_ValidChecksumEmitsThePayload : (st checking).Live 0 checking ∧ checking.phase = .collect ∧
    checking.remainingLength = 0x00#8 ∧ (checking.runningChecksum.toNat + (0x00#8 : Byte).toNat) % 256 = 255 :=
  ⟨live_st rfl rfl, rfl, rfl, by decide⟩

theorem witness_InvalidChecksumDropsTheFrame : (st checking).Live 0 checking ∧ checking.phase = .collect ∧
    checking.remainingLength = 0x00#8 ∧ (checking.runningChecksum.toNat + (0x01#8 : Byte).toNat) % 256 ≠ 255 :=
  ⟨live_st rfl rfl, rfl, rfl, by decide⟩

theorem witness_ComposedFrameEndsWithItsChecksum : ([0x44#8, 0x30#8] : List Byte).length = 2 := rfl

theorem witness_WrongLengthNameIsAContractViolation : ([0x44#8] : List Byte).length ≠ 2 ∧
    ([0x44#8, 0x30#8, 0x30#8] : List Byte).length ≠ 2 := by decide

theorem witness_ChecksumOfComplementsTheByteSum : ([0x80#8, 0x7F#8] : List Byte).Perm [0x7F#8, 0x80#8] := .swap ..

/-- The last pin admitted, the first one that is not, and an `on` byte. -/
theorem witness_BuildDigitalOutputComposesThePinFrame : (7#8 : Byte).toNat ≤ 7 ∧ 7 < (8#8 : Byte).toNat := by decide

theorem witness_BuildPinConfigComposesThePinFrame : (7#8 : Byte).toNat ≤ 7 ∧ 7 < (8#8 : Byte).toNat ∧ (0x01#8 : Byte) ≠ 0x00#8 := by
  decide

theorem witness_ComposedFrameDeterminesItsOperands :
    ∃ r, exec (.compose 0x02#8 absent [0x44#8, 0x30#8] 0x05#8) (st seeking) = .next r ∧ r.out.reply = some (.frame w1) :=
  ⟨_, rfl, by decide⟩

theorem witness_CodecDependsOnItsOperandsAlone :
    (∃ o t n d, Instr.compose 0 absent [] 0 = .compose o t n d) ∧ (∃ sp, Instr.checksumOf [] = .checksumOf sp) ∧
    (∃ p on t, Instr.buildDigitalOutput 8 0 absent = .buildDigitalOutput p on t) ∧
    (∃ p c t, Instr.buildPinConfig 7 0 absent = .buildPinConfig p c t) :=
  ⟨⟨_, _, _, _, rfl⟩, ⟨_, rfl⟩, ⟨_, _, _, rfl⟩, ⟨_, _, _, rfl⟩⟩

theorem witness_NoByteIsAnException : (st expecting).Live 0 expecting := live_st rfl rfl

theorem witness_FrameOutputExactlyWithFrameOk : ∃ t, exec (.feedByte 0 0x00#8) (st checking) = .next t ∧
    t.out.frame.isSome = true ∧ t.out.event.isSome = true := ⟨_, rfl, by decide, by decide⟩

theorem witness_OnlyACompleteCheckedPayloadIsEmitted : (st checking).Inv ∧
    ∃ t, exec (.feedByte 0 0x00#8) (st checking) = .next t ∧ t.out.frame = some [0xFF#8] :=
  ⟨inv_st inv_checking, _, rfl, by decide⟩

/-- Each of the three events. -/
theorem witness_CompletionDropAndResyncReturnToTheInitialState :
    (∃ t, exec (.feedByte 0 0x00#8) (st checking) = .next t ∧ t.out.event = some .frameOk) ∧
    (∃ t, exec (.feedByte 0 0x01#8) (st checking) = .next t ∧ t.out.event = some .frameBad) ∧
    (∃ t, exec (.feedByte 0 0x7E#8) (st expecting) = .next t ∧ t.out.event = some .resync) :=
  ⟨⟨_, rfl, by decide⟩, ⟨_, rfl, by decide⟩, ⟨_, rfl, by decide⟩⟩

theorem witness_OnlyTheNamedInstanceChanges : (∃ t, exec (.feedByte 0 0x7E#8) (st seeking) = .next t) ∧
    Instr.feedByte 0 0x7E#8 ≠ .reset 1 ∧ Instr.feedByte 0 0x7E#8 ≠ .close 1 ∧
    (∀ b, Instr.feedByte 0 0x7E#8 ≠ .feedByte 1 b) ∧ (∀ b, (Instr.feedByte 0 0x7E#8).carriedByte ≠ some (1, b)) :=
  ⟨⟨_, rfl⟩, by decide, by decide, by simp, by simp [Instr.carriedByte]⟩

theorem witness_FeedsOfDifferentInstancesCommute : (0 : Byte) ≠ 1 := by decide

theorem witness_HiddenRegistersAreNeverObserved :
    let q := pr .readLengthLow 0x05#8 0x06#8 [0x07#8]
    (st reading).parser? 0 = some reading ∧ q.phase = reading.phase ∧ q.isOpen = reading.isOpen ∧ q.fault = reading.fault ∧
    reading.phase = .readLengthLow := ⟨rfl, rfl, rfl, rfl, rfl⟩

theorem witness_FeedIsItsFeedByteRequests : (st collecting).Live 0 collecting ∧ (st collecting).pending = [] :=
  ⟨live_st rfl rfl, rfl⟩

theorem witness_FragmentationDoesNotMatter : (st collecting).Live 0 collecting := live_st rfl rfl

theorem witness_SpuriousMarkerDoesNotReachCollect : (st seeking).Live 0 seeking ∧ seeking.phase = .seekHeader ∧
    (0x7E#8 : Byte) ≠ 0x00#8 := ⟨live_st rfl rfl, rfl, by decide⟩

theorem witness_EmptyFrameIsAccepted : (st seeking).Live 0 seeking ∧ seeking.phase = .seekHeader := ⟨live_st rfl rfl, rfl⟩

/-- The longest payload. -/
theorem witness_EveryFramedPayloadIsEmitted : (st seeking).Live 0 seeking ∧ seeking.phase = .seekHeader ∧
    (List.replicate 255 (0x7E#8 : Byte)).length ≤ 255 := ⟨live_st rfl rfl, rfl, by rw [List.length_replicate]⟩

theorem witness_EveryEmittedPayloadWasFramed : (st seeking).parser? 0 = some Parser.initial ∧
    (feedByte 0 0xFF#8 (feed 0 [0x7E#8, 0x00#8, 0x00#8] (st seeking)).1).out.frame = some [] := ⟨rfl, by decide⟩

theorem witness_ComposedFrameRoundTripsThroughTheParser :
    (∃ r, exec (.compose 0x02#8 absent [0x44#8, 0x30#8] 0x05#8) (st seeking) = .next r ∧ r.out.reply = some (.frame w1)) ∧
    (st seeking).Live 0 seeking ∧ seeking.phase = .seekHeader := ⟨⟨_, rfl, by decide⟩, live_st rfl rfl, rfl⟩

/-- The last payload byte changed, and the checksum byte changed. -/
theorem witness_SingleByteCorruptionIsDropped : (st seeking).Live 0 seeking ∧ seeking.phase = .seekHeader ∧
    ([0x17#8, 0x05#8] : List Byte).length ≤ 255 ∧
    (1 < ([0x17#8, 0x05#8] : List Byte).length ∧ ([0x17#8, 0x05#8] : List Byte)[1]? ≠ some 0x04#8) ∧
    (0x00#8 : Byte) ≠ checksum [0x17#8, 0x05#8] := ⟨live_st rfl rfl, rfl, by decide, by decide, by decide⟩

end Sys2Proof.Tests
end

section
/-! PROOFS. The encoding family: the frame COMPOSE answers with (spec/30_encoding.md R61 to R63, spec/40_codec.md R90 to R93). -/

namespace Sys2Proof.Machine

/-- The meaning COMPOSE has (R90). -/
theorem exec_compose (o : Byte) (t : Target) (n : List Byte) (d : Byte) (s : State) :
    exec (.compose o t n d) s = execCompose o t n d s := by
  rfl

/-- COMPOSE with a two-byte name answers the envelope of its payload and writes no register (R90, R92). -/
theorem exec_compose_ok {o d : Byte} {t : Target} {n : List Byte} (h : n.length = 2) (s : State) :
    exec (.compose o t n d) s = .next (s.answer (.frame (envelope (composedPayload o t n d)))) := by
  rw [exec_compose, execCompose, compose_ok h, State.answerFrame]

/-- The covered bytes in wire order, the multi-byte operands split big-endian (R61, R63). -/
theorem composedPayload_bytes (o : Byte) (t : Target) (n : List Byte) (d : Byte) :
    composedPayload o t n d = [0x17#8, frameIdOf t] ++
      [(addressOf t).extractLsb' 56 8, (addressOf t).extractLsb' 48 8, (addressOf t).extractLsb' 40 8,
        (addressOf t).extractLsb' 32 8, (addressOf t).extractLsb' 24 8, (addressOf t).extractLsb' 16 8,
        (addressOf t).extractLsb' 8 8, (addressOf t).extractLsb' 0 8] ++
      [(networkOf t).extractLsb' 8 8, (networkOf t).extractLsb' 0 8] ++ [o] ++ n ++ [d] := by
  rw [composedPayload, be_address, be_network, Config.apiIdRemoteAt]

/-- The checksum byte is the byte of the complemented sum (R93). -/
theorem checksum_eq_ofNat (s : List Byte) :
    checksum s = BitVec.ofNat 8 (255 - (s.map BitVec.toNat).sum % 256) := by
  rw [← checksum_toNat, BitVec.ofNat_toNat, BitVec.setWidth_eq]

/-- The envelope of a 16-byte payload carries the length field 00 10, and its checksum in numbers (R92, R93). -/
theorem envelope_of_length_16 {p : List Byte} (h : p.length = 16) :
    envelope p = [0x7E#8, 0x00#8, 0x10#8] ++ p ++ [BitVec.ofNat 8 (255 - (p.map BitVec.toNat).sum % 256)] := by
  rw [envelope, h, checksum_eq_ofNat]

/-- Settles O34: the answer is the envelope of the 16 covered bytes, which are then written out byte by byte. -/
theorem composeAnswersTheRemoteAtFrame : Obligations.ComposeAnswersTheRemoteAtFrame := by
  intro s o d n0 n1 t fid addr net covered
  have hcovered : composedPayload o t [n0, n1] d = covered := composedPayload_bytes o t [n0, n1] d
  have hlength : covered.length = 16 := rfl
  rw [exec_compose_ok rfl, hcovered, envelope_of_length_16 hlength, State.answer]

end Sys2Proof.Machine
end

section
/-! PROOFS. The codec family: the checksum byte of a composed frame (spec/40_codec.md R93), and where a frame on the wire
carries its payload and its checksum (spec/30_encoding.md R60). -/

namespace Sys2Proof.Machine

/-- The meaning CHECKSUM_OF has: the checksum of the span answered, no register written (R95). -/
theorem exec_checksumOf (span : List Byte) (s : State) :
    exec (.checksumOf span) s = .next (s.answer (.checksum (checksum span))) := by
  rfl

@[simp] theorem envelope_length (p : List Byte) : (envelope p).length = p.length + 4 := by
  simp [envelope]

/-- The payload stands behind the marker and the two length bytes. -/
theorem envelope_covered (p : List Byte) : ((envelope p).drop 3).take p.length = p := by
  simp [envelope]

/-- The checksum stands behind the payload. -/
theorem envelope_checksum (p : List Byte) : (envelope p)[p.length + 3]? = some (checksum p) := by
  simp [envelope]

/-- Settles O35: the frame is the envelope of the 16 covered bytes, so its bytes 3 to 18 are the span its byte 19 sums up. -/
theorem composedFrameEndsWithItsChecksum : Obligations.ComposedFrameEndsWithItsChecksum := by
  intro s o d t name hname
  let p := composedPayload o t name d
  have hlength : p.length = 16 := composedPayload_length hname
  have hcovered : ((envelope p).drop 3).take 16 = p := hlength ▸ envelope_covered p
  have hbyte : (envelope p)[19]? = some (checksum p) := by simpa [hlength] using envelope_checksum p
  refine ⟨envelope p, checksum p, exec_compose_ok hname s, by simp [hlength], hbyte, ?_, ?_⟩
  · rw [hcovered, checksum_toNat]
  · rw [hcovered, exec_checksumOf, State.answer]

end Sys2Proof.Machine
end

section
/-! PROOFS. The parser family: the transitions of spec/41_parser.md R124 to R129. On a live instance FEED_BYTE and the row
its registers select do the same, said once for every phase; each statement is then that meaning at one row. -/

namespace Sys2Proof.Machine

/-! ### Which row the byte decode table selects (R72) -/

section Selection
variable (rl rc inst : Byte) {b : Byte}

theorem decodeByte_header : decodeByte .seekHeader rl rc inst 0x7E#8 = .seekHeaderHeader inst := rfl

theorem decodeByte_discard (hb : b ≠ 0x7E#8) :
    decodeByte .seekHeader rl rc inst b = .seekHeaderDiscard inst b := by
  simp [decodeByte, Config.header, hb]

theorem decodeByte_zero : decodeByte .expectLengthHigh rl rc inst 0x00#8 = .expectLengthHighZero inst := rfl

theorem decodeByte_resync (hb : b ≠ 0x00#8) :
    decodeByte .expectLengthHigh rl rc inst b = .expectLengthHighResync inst b := by
  simp [decodeByte, Config.lenHiRequired, hb]

theorem decodeByte_length (b : Byte) : decodeByte .readLengthLow rl rc inst b = .readLengthLowLength inst b := rfl

theorem decodeByte_payload {rl : Byte} (hr : rl ≠ 0x00#8) :
    decodeByte .collect rl rc inst b = .collectPayload inst b := by
  simp [decodeByte, hr]

theorem decodeByte_frameOk {rc : Byte} (hc : rc + b = 0xFF#8) :
    decodeByte .collect 0x00#8 rc inst b = .collectFrameOk inst b := by
  simp [decodeByte, checksumMatches, Config.checkTarget, hc]

theorem decodeByte_frameBad {rc : Byte} (hc : rc + b ≠ 0xFF#8) :
    decodeByte .collect 0x00#8 rc inst b = .collectFrameBad inst b := by
  simp [decodeByte, checksumMatches, Config.checkTarget, hc]

end Selection

/-! ### What FEED_BYTE and the selected row do on a live instance -/

section Live
variable {s : State} {inst b : Byte} {p : Parser}

/-- FEED_BYTE on a live instance consumes the byte (R123). -/
theorem exec_feedByte_live (h : s.Live inst p) :
    exec (.feedByte inst b) s = .next (s.commit inst (consume p b)) :=
  congrArg Host.Outcome.next (feedByte_live (feedable_of_live h))

/-- A row that the registers of a live instance select runs. -/
theorem runRow_selected (h : s.Live inst p) {sel : Parser → Bool} {row : Parser → ParserStep} (hsel : sel p = true) :
    runRow inst b sel row s = .next (s.commit inst (row p)) := by
  simp [runRow, feedable_of_live h, hsel]

/-- The row that the byte decode table selects does what FEED_BYTE of its byte does (R72). -/
theorem exec_decodeByte_live (h : s.Live inst p) :
    exec (decodeByte p.phase p.remainingLength p.runningChecksum inst b) s = .next (s.commit inst (consume p b)) := by
  cases hp : p.phase with
  | seekHeader =>
    rw [consume_seekHeader hp]
    by_cases hb : b = 0x7E#8
    · rw [if_pos hb, hb, decodeByte_header]
      exact runRow_selected h (by simp [hp])
    · rw [if_neg hb, decodeByte_discard _ _ _ hb]
      exact runRow_selected h (by simp [hp, hb, Config.header])
  | expectLengthHigh =>
    rw [consume_expectLengthHigh hp]
    by_cases hb : b = 0x00#8
    · rw [if_pos hb, hb, decodeByte_zero]
      exact runRow_selected h (by simp [hp])
    · rw [if_neg hb, decodeByte_resync _ _ _ hb]
      exact runRow_selected h (by simp [hp, hb, Config.lenHiRequired])
  | readLengthLow =>
    rw [consume_readLengthLow hp, decodeByte_length]
    exact runRow_selected h (by simp [hp])
  | collect =>
    by_cases hr : p.remainingLength = 0x00#8
    · rw [consume_collect_end hp hr, hr]
      by_cases hc : p.runningChecksum + b = 0xFF#8
      · rw [if_pos hc, decodeByte_frameOk _ hc]
        exact runRow_selected h (by simp [hp, hr, hc, checksumMatches, Config.checkTarget])
      · rw [if_neg hc, decodeByte_frameBad _ hc]
        exact runRow_selected h (by simp [hp, hr, hc, checksumMatches, Config.checkTarget])
    · rw [consume_collect_payload hp hr, decodeByte_payload _ _ hr]
      exact runRow_selected h (by simp [hp, hr])

/-- FEED_BYTE, and the row selected for its byte: the instance gets the registers of the consumed byte and its outputs are
driven, and nothing else changes. -/
theorem exec_feed_or_row {i : Instr} (h : s.Live inst p)
    (hi : i = .feedByte inst b ∨ i = decodeByte p.phase p.remainingLength p.runningChecksum inst b) :
    exec i s = .next
      { s with
        parsers := s.parsers.set inst.toNat (consume p b).parser
        out := ⟨some (consume p b).event, (consume p b).emitted, none⟩ } := by
  rcases hi with rfl | rfl
  · exact exec_feedByte_live h
  · exact exec_decodeByte_live h

end Live

/-- The countdown does not wrap while bytes remain (R129). -/
theorem rowCollectPayload_remainingLength {p : Parser} (h : 0 < p.remainingLength.toNat) (b : Byte) :
    (rowCollectPayload p b).parser.remainingLength.toNat = p.remainingLength.toNat - 1 :=
  BitVec.toNat_sub_of_le (x := p.remainingLength) (y := 0x01#8) (BitVec.le_def.mpr h)

/-! ### The statements -/

/-- Settles O27: the marker selects the header row, any other byte the discard row, which writes back what stands there. -/
theorem seekHeaderScansForTheMarker : Obligations.SeekHeaderScansForTheMarker := by
  intro s inst b p i hlive hphase
  constructor
  · rintro rfl hi
    rw [exec_feed_or_row hlive (by rwa [hphase, decodeByte_header]), consume_seekHeader hphase, if_pos rfl,
      rowSeekHeaderHeader]
  · intro hb hi
    have hsame : s.parsers.set inst.toNat p = s.parsers := set_same hlive.1
    rw [exec_feed_or_row hlive (by rwa [hphase, decodeByte_discard _ _ _ hb]), consume_seekHeader hphase, if_neg hb,
      rowSeekHeaderDiscard, hsame]

/-- Settles O28: the byte 0x00 selects the zero row. -/
theorem zeroLengthHighByteMovesOn : Obligations.ZeroLengthHighByteMovesOn := by
  intro s inst p i hlive hphase hi
  rw [exec_feed_or_row hlive (by rwa [hphase, decodeByte_zero]), consume_expectLengthHigh hphase, if_pos rfl,
    rowExpectLengthHighZero]

/-- Settles O30: every byte selects the length row. -/
theorem lengthLowByteStartsCollecting : Obligations.LengthLowByteStartsCollecting := by
  intro s inst b p i hlive hphase hi
  rw [exec_feed_or_row hlive (by rwa [hphase, decodeByte_length]), consume_readLengthLow hphase, rowReadLengthLowLength]

/-- Settles O31: a nonzero countdown selects the payload row, whose registers are then read as numbers. -/
theorem payloadByteIsCollectedAndSummed : Obligations.PayloadByteIsCollectedAndSummed := by
  intro s inst b p i hlive hphase hpos hi
  have hr : p.remainingLength ≠ 0x00#8 := fun e => by simp [e] at hpos
  refine ⟨(rowCollectPayload p b).parser, ?_, rfl, ?_, rowCollectPayload_remainingLength hpos b, hphase, rfl, rfl⟩
  · rw [exec_feed_or_row hlive (by rwa [hphase, decodeByte_payload _ _ hr]), consume_collect_payload hphase hr,
      rowCollectPayload]
  · exact BitVec.toNat_add p.runningChecksum b

end Sys2Proof.Machine
end

section
/-! PROOFS. The register invariant of spec/10_state.md R32 along a run: at reset, over every step, and so in every
reachable state. -/

namespace Sys2Proof.Machine

/-- A hardware reset establishes the invariant, whatever the registers held. -/
theorem hardwareReset_inv (s : State) : s.hardwareReset.Inv := by
  intro q hq
  obtain ⟨p, -, rfl⟩ := List.mem_map.mp hq
  exact recreate_inv p

/-- Settles O8: a step is idle, a hardware reset, or an operation, and each keeps the invariant. -/
theorem stepKeepsTheRegisterInvariant : Obligations.StepKeepsTheRegisterInvariant := by
  intro s t hs h
  rcases step_cases h with ⟨-, rfl⟩ | ⟨rest, -, rfl⟩ | ⟨bs, rest, i, -, -, hexec⟩
  · exact hs
  · exact hardwareReset_inv _
  · exact effect_inv (exec_effect hexec) hs

theorem initial_inv : Parser.initial.Inv := recreate_inv Parser.initial

/-- Settles O9: every instance after reset holds the initial registers. -/
theorem resetMeetsTheRegisterInvariant : Obligations.ResetMeetsTheRegisterInvariant := by
  intro p hp
  rw [List.eq_of_mem_replicate hp]
  exact initial_inv

/-- The payload register of an instance that meets the invariant holds at most 255 bytes (R24, R41). -/
theorem payload_length_le {p : Parser} (h : p.Inv) : p.payload.length ≤ 255 := by
  unfold Parser.Inv at h
  split at h
  · exact (Nat.le_add_right _ _).trans h.2
  · simp [h.2.2]

/-- No step adds or removes an instance (R173). -/
theorem step_length {s t : State} (h : step s = .next t) : t.parsers.length = s.parsers.length := by
  rcases step_cases h with ⟨-, rfl⟩ | ⟨rest, -, rfl⟩ | ⟨bs, rest, i, -, -, hexec⟩
  · rfl
  · exact List.length_map _
  · exact (effect_length (exec_effect hexec)).trans rfl

theorem reachable_inv {s : State} (h : Reachable s) : s.Inv := by
  induction h with
  | reset inputs => exact resetMeetsTheRegisterInvariant
  | step _ hstep ih => exact stepKeepsTheRegisterInvariant _ _ ih hstep

theorem reachable_length {s : State} (h : Reachable s) : s.parsers.length = Config.nStreams := by
  induction h with
  | reset inputs => exact List.length_replicate
  | step _ hstep ih => exact (step_length hstep).trans ih

/-- Settles O10, by induction on the run. -/
theorem reachableStatesMeetTheRegisterInvariant : Obligations.ReachableStatesMeetTheRegisterInvariant :=
  fun _ h => ⟨reachable_inv h, reachable_length h, fun p hp => payload_length_le (reachable_inv h p hp)⟩

end Sys2Proof.Machine
end

section
/-! PROOFS. The faults and refusals a run has seen (spec/60_exceptions.md R161, R163): what an operation can write in the
instances, and that neither a recorded fault nor the refusal mark is ever cleared. -/

namespace Sys2Proof.Machine

/-! ### Which instance an operation writes -/

/-- The operation names instance `inst`: RESET, CLOSE, FEED_BYTE, or a row of the byte decode table. -/
def Names (i : Instr) (inst : Byte) : Prop :=
  i = .reset inst ∨ i = .close inst ∨ (∃ b, i = .feedByte inst b) ∨ (∃ b, i.carriedByte = some (inst, b))

theorem names_of_feeds {i : Instr} {inst b : Byte} (h : Feeds i inst b) : Names i inst :=
  h.elim (fun h => .inr (.inr (.inl ⟨b, h⟩))) fun h => .inr (.inr (.inr ⟨b, h⟩))

/-- Recording the one fault code there is again writes what stands there (R26). -/
theorem recorded_again {p : Parser} {f : FaultCode} (h : p.fault = some f) :
    { p with fault := some .stateDestroyed } = p := by
  cases f
  rw [← h]

/-- An operation writes at most the instance it names, and leaves even that one as it is where a fault is recorded (R169). -/
theorem effect_parsers {i : Instr} {s t : State} (he : Effect i s t) :
    t.parsers = s.parsers ∨
      ∃ inst p q, Names i inst ∧ s.parser? inst = some p ∧ (p.fault ≠ none → q = p) ∧
        t.parsers = s.parsers.set inst.toNat q := by
  cases he with
  | raised e h =>
    rcases raise_parsers e s with h1 | ⟨inst, b, p, rfl, hp, h1⟩
    · exact .inl h1
    · refine .inr ⟨inst, p, _, names_of_feeds (h inst b rfl).1, hp, fun hf => ?_, h1⟩
      obtain ⟨f, hf⟩ := Option.ne_none_iff_exists'.mp hf
      exact recorded_again hf
  | answered => exact .inl rfl
  | stayed => exact .inl rfl
  | recreated inst p hi hp hf => exact .inr ⟨inst, p, _, .inl hi, hp, fun h => absurd hf h, rfl⟩
  | closed inst p hi hp hf => exact .inr ⟨inst, p, _, .inr (.inl hi), hp, fun h => absurd hf h, rfl⟩
  | consumed inst b p hi hl => exact .inr ⟨inst, p, _, names_of_feeds hi, hl.1, fun h => absurd hl.2.2 h, rfl⟩

/-- Settles O47: the one instance written is one that the operation names. -/
theorem onlyTheNamedInstanceChanges : Obligations.OnlyTheNamedInstanceChanges := by
  intro i s t k h hreset hclose hfeed hrow
  have hk : ¬ Names i k := by
    rintro (h | h | ⟨b, h⟩ | ⟨b, h⟩)
    exacts [hreset h, hclose h, hfeed b h, hrow b h]
  rcases effect_parsers (exec_effect h) with hs | ⟨inst, p, q, hn, -, -, hs⟩
  · rw [State.parser?, hs, State.parser?]
  · have hne : k ≠ inst := fun e => hk (e ▸ hn)
    rw [State.parser?, hs]
    exact parser?_setParser_other hne

/-! ### A recorded fault stays recorded -/

/-- An operation changes nothing in an instance with a fault recorded. The instance is given by its place in the list: one
above 255 has no number that a request can name. -/
theorem effect_faulted {i : Instr} {s t : State} (he : Effect i s t) {n : Nat} {p : Parser} (hp : s.parsers[n]? = some p)
    (hf : p.fault ≠ none) : t.parsers[n]? = some p := by
  rcases effect_parsers he with hs | ⟨inst, p', q, -, hp', hq, hs⟩
  · rw [hs, hp]
  · rw [hs]
    by_cases hn : inst.toNat = n
    · subst hn
      obtain rfl : p' = p := Option.some.inj (hp'.symm.trans hp)
      rw [hq hf, set_same hp, hp]
    · rw [List.getElem?_set_ne hn, hp]

/-- No step clears a recorded fault, a hardware reset included (R26, R182). -/
theorem step_keeps_fault {s t : State} (h : step s = .next t) {n : Nat} {p : Parser} {f : FaultCode}
    (hp : s.parsers[n]? = some p) (hf : p.fault = some f) : ∃ q, t.parsers[n]? = some q ∧ q.fault = some f := by
  rcases step_cases h with ⟨-, rfl⟩ | ⟨rest, -, rfl⟩ | ⟨bs, rest, i, -, -, hexec⟩
  · exact ⟨p, hp, hf⟩
  · exact ⟨p.recreate, by simp [hp], hf⟩
  · exact ⟨p, effect_faulted (exec_effect hexec) hp (by simp [hf]), hf⟩

/-- Settles O11. -/
theorem stepNeverClearsARecordedFault : Obligations.StepNeverClearsARecordedFault :=
  fun _ _ _ _ _ h hp hf => step_keeps_fault h hp hf

/-! ### The refusal mark stays set -/

/-- `raise` sets the refusal mark for the outcomes without a code, which are the refusals (R160, R163). -/
theorem raise_refusalMark_eq (e : Exceptional) (s : State) :
    (s.raise e).refusalMark = (s.refusalMark || (exceptionalCode e).isNone) := by
  rw [raise_refusalMark]
  cases e <;> simp [exceptionalCode]

theorem effect_refusalMark {i : Instr} {s t : State} (he : Effect i s t) (h : s.refusalMark = true) :
    t.refusalMark = true := by
  cases he with
  | raised e _ => rw [raise_refusalMark_eq, h, Bool.true_or]
  | _ => exact h

theorem step_refusalMark {s t : State} (h : step s = .next t) (hm : s.refusalMark = true) : t.refusalMark = true := by
  rcases step_cases h with ⟨-, rfl⟩ | ⟨rest, -, rfl⟩ | ⟨bs, rest, i, -, -, hexec⟩
  · exact hm
  · exact hm
  · exact effect_refusalMark (exec_effect hexec) hm

/-- Settles O12. -/
theorem stepKeepsTheRefusalMarkAndTheInstances : Obligations.StepKeepsTheRefusalMarkAndTheInstances :=
  fun _ _ h => ⟨step_refusalMark h, step_length h⟩

/-- Settles O13: what made the state before unclean, a fault or the mark, is still there after the step. -/
theorem onlyACleanStateLeadsToACleanState : Obligations.OnlyACleanStateLeadsToACleanState := by
  rintro s t h ⟨hfinal, hmark⟩
  constructor
  · intro p hp
    by_contra hf
    obtain ⟨f, hf⟩ := Option.ne_none_iff_exists'.mp hf
    obtain ⟨n, hn⟩ := List.mem_iff_getElem?.mp hp
    obtain ⟨q, hq, hqf⟩ := step_keeps_fault h hn hf
    simp [hfinal q (List.mem_of_getElem? hq)] at hqf
  · by_contra hs
    have hset := step_refusalMark h (by simpa using hs)
    simp [hmark] at hset

end Sys2Proof.Machine
end

section
/-! PROOFS. Exceptional outcomes (spec/60_exceptions.md R160 to R169): each one precise, and what a missing, a closed and a
faulted instance answer. -/

namespace Sys2Proof.Machine

/-- What is reported as an exceptional outcome was raised as that outcome (R168). -/
theorem effect_of_raised {i : Instr} {s t : State} {e : Exceptional} (he : Effect i s t)
    (h : t.out.reply = some (.raised e)) :
    t = s.raise e ∧ ∀ inst b, e = .stateDestroyed inst b → ∃ p, s.parser? inst = some p := by
  cases he with
  | raised e' hd =>
    obtain rfl : e' = e := by simpa [raise_out] using h
    exact ⟨rfl, fun inst b hi => (hd inst b hi).2⟩
  | answered r hr hi => exact absurd (Option.some.inj h) (hr e)
  | _ => cases h

/-- Settles O14: the next state is the one `raise` gives, whose fields are known. -/
theorem exceptionalOutcomesArePrecise : Obligations.ExceptionalOutcomesArePrecise := by
  intro i s t e h hreply
  obtain ⟨rfl, hexists⟩ := effect_of_raised (exec_effect h) hreply
  refine ⟨raise_pending e s, by rw [raise_out], by rw [raise_out], raise_refusalMark_eq e s, ?_, ?_⟩
  · intro hne
    rcases raise_parsers e s with hs | ⟨inst, b, -, he, -⟩
    · exact hs
    · exact absurd he (hne inst b)
  · rintro inst b rfl
    obtain ⟨p, hp⟩ := hexists inst b rfl
    rw [raise_stateDestroyed hp]
    exact ⟨fun k hk => parser?_setParser_other (s := s) hk, p, hp, parser?_setParser_same (s := s) hp⟩

/-! ### Why an instance takes no byte (checks 2 and 3 of R167) -/

section Feedable
variable {s : State} {inst b : Byte} {p : Parser}

theorem feedable_missing (h : s.parser? inst = none) : feedable inst b s = .error (.noSuchInstance inst) := by
  simp [feedable, h]

theorem feedable_destroyed (h : s.parser? inst = some p) (hl : p.live = false) :
    feedable inst b s = .error (.stateDestroyed inst b) := by
  simp [feedable, h, hl]

theorem not_live_of_closed (h : p.isOpen = false) : p.live = false := by simp [Parser.live, h]

theorem not_live_of_faulted {f : FaultCode} (h : p.fault = some f) : p.live = false := by
  simp [Parser.live, Parser.faulted, h]

/-- FEED_BYTE and every row of its byte take the exceptional outcome of an instance that takes no byte. -/
theorem exec_feeds_error {i : Instr} {e : Exceptional} (hi : Feeds i inst b) (h : feedable inst b s = .error e) :
    exec i s = .next (s.raise e) := by
  rcases hi with rfl | hrow
  · exact congrArg Host.Outcome.next (feedByte_error h)
  · obtain ⟨sel, row, hexec⟩ := exec_row hrow s
    rw [hexec, runRow, h]

/-- STATE_DESTROYED of an instance that has it recorded is a report and no write. -/
theorem raise_stateDestroyed_faulted {f : FaultCode} (h : s.parser? inst = some p) (hf : p.fault = some f) (b : Byte) :
    s.raise (.stateDestroyed inst b) = s.answer (.raised (.stateDestroyed inst b)) := by
  have hsame : s.parsers.set inst.toNat p = s.parsers := set_same h
  rw [raise_stateDestroyed h, recorded_again hf, hsame, State.answer]

theorem exec_feeds_faulted {i : Instr} {f : FaultCode} (hi : Feeds i inst b) (h : s.parser? inst = some p)
    (hf : p.fault = some f) : exec i s = .next (s.answer (.raised (.stateDestroyed inst b))) := by
  rw [exec_feeds_error hi (feedable_destroyed h (not_live_of_faulted hf)), raise_stateDestroyed_faulted h hf]

/-! ### What RESET and CLOSE make of an instance -/

theorem lifecycle_missing (write : Parser → Parser) (h : s.parser? inst = none) :
    s.lifecycle inst write = s.raise (.noSuchInstance inst) := by
  simp [State.lifecycle, existing, h]

theorem lifecycle_faulted (write : Parser → Parser) {f : FaultCode} (h : s.parser? inst = some p)
    (hf : p.fault = some f) : s.lifecycle inst write = s.quiet := by
  simp [State.lifecycle, existing, h, Parser.faulted, hf]

theorem lifecycle_unfaulted (write : Parser → Parser) (h : s.parser? inst = some p) (hf : p.fault = none) :
    s.lifecycle inst write = (s.setParser inst (write p)).quiet := by
  simp [State.lifecycle, existing, h, Parser.faulted, hf]

theorem exec_reset (inst : Byte) (s : State) : exec (.reset inst) s = .next (s.lifecycle inst Parser.recreate) := by
  rfl

theorem exec_close (inst : Byte) (s : State) :
    exec (.close inst) s = .next (s.lifecycle inst fun p => { p with isOpen := false }) := by
  rfl

/-- The registers RESET and a return to SeekHeader leave in a live instance are the initial ones (R121, R136, D6). -/
theorem toSeek_of_live (h : s.Live inst p) : p.toSeek = Parser.initial := by
  obtain ⟨-, ho, hf⟩ := h
  simp [Parser.toSeek, Parser.initial, ho, hf]

theorem recreate_of_unfaulted (hf : p.fault = none) : p.recreate = Parser.initial := by
  simp [Parser.recreate, Parser.toSeek, Parser.initial, hf]

end Feedable

/-! ### The statements -/

/-- Settles O58: the instance is not written, and an operation that names it does nothing but report, if it is a byte. -/
theorem faultedInstanceTakesNoFurtherStep : Obligations.FaultedInstanceTakesNoFurtherStep := by
  intro i s t inst p f h hp hf
  refine ⟨effect_faulted (exec_effect h) hp (by simp [hf]), ?_⟩
  have hfeeds : ∀ b, Feeds i inst b → t = s.answer (.raised (.stateDestroyed inst b)) := fun b hi =>
    (Host.Outcome.next.inj ((exec_feeds_faulted hi hp hf).symm.trans h)).symm
  rintro (rfl | rfl | ⟨b, hi⟩ | ⟨b, hi⟩)
  · rw [exec_reset, lifecycle_faulted _ hp hf] at h
    cases h
    exact ⟨rfl, rfl, rfl, rfl⟩
  · rw [exec_close, lifecycle_faulted _ hp hf] at h
    cases h
    exact ⟨rfl, rfl, rfl, rfl⟩
  · rw [hfeeds b (.inl hi)]
    exact ⟨rfl, rfl, rfl, rfl⟩
  · rw [hfeeds b (.inr hi)]
    exact ⟨rfl, rfl, rfl, rfl⟩

/-- Settles O19. -/
theorem reservedRequestIsRefused : Obligations.ReservedRequestIsRefused := by
  intro h s
  rfl

/-- Settles O20: every one of these operations looks the instance up first and raises NO_SUCH_INSTANCE. -/
theorem missingInstanceIsRefused : Obligations.MissingInstanceIsRefused := by
  intro inst s i hlen hi
  have hnone : s.parser? inst = none := List.getElem?_eq_none hlen
  suffices exec i s = .next (s.raise (.noSuchInstance inst)) from this
  rcases hi with rfl | rfl | ⟨b, hi⟩ | ⟨b, hi⟩
  · rw [exec_reset, lifecycle_missing _ hnone]
  · rw [exec_close, lifecycle_missing _ hnone]
  · exact exec_feeds_error (.inl hi) (feedable_missing hnone)
  · exact exec_feeds_error (.inr hi) (feedable_missing hnone)

/-- Settles O23. -/
theorem resetRecreatesTheInstance : Obligations.ResetRecreatesTheInstance := by
  intro s inst p hp
  constructor
  · intro hf
    rw [exec_reset, lifecycle_unfaulted _ hp hf, recreate_of_unfaulted hf]
    rfl
  · intro hf
    rw [exec_reset, lifecycle_faulted _ hp hf]
    rfl

/-- Settles O24. -/
theorem closeDestroysTheInstance : Obligations.CloseDestroysTheInstance := by
  intro s inst p hp
  constructor
  · intro hf
    rw [exec_close, lifecycle_unfaulted _ hp hf, hf]
    rfl
  · intro hf
    rw [exec_close, lifecycle_faulted _ hp hf]
    rfl

/-- Settles O25. -/
theorem feedingAClosedInstanceRecordsStateDestroyed : Obligations.FeedingAClosedInstanceRecordsStateDestroyed := by
  intro s inst b p i hp hclosed hi
  rw [exec_feeds_error hi (feedable_destroyed hp (not_live_of_closed hclosed)), raise_stateDestroyed hp, hclosed]

/-- Settles O26. -/
theorem faultedInstanceTakesNoByte : Obligations.FaultedInstanceTakesNoByte := by
  intro s inst b p hp hf
  rw [exec_feeds_faulted (.inl rfl) hp hf, State.answer]

end Sys2Proof.Machine
end

section
/-! PROOFS. The request decoder against the encoder (spec/30_encoding.md R69 to R71): every reader forwards, on an encoded
body, and backwards, from what it read; and the machine's step on a request. -/

namespace Sys2Proof

/-! ### Forwards: what each body reader makes of an encoded body -/

/-- A body that is read with nothing left over is a request. -/
theorem decode_of_body {h : Byte} {bs : List Byte} {i : Instr} (hb : decodeBody h bs = some (i, [])) :
    decode (h :: bs) = .ok i := by
  simp only [decode, hb]

theorem decodeBody_reserved {h : Byte} (hr : isReservedHeader h = true) (bs : List Byte) :
    decodeBody h bs = some (.reserved h, []) := by
  simp only [decodeBody, hr, if_true]

theorem readCompose_encode (op : BitVec 3) (o : Byte) (t : Target) {name : List Byte} (hn : name.length < 2 ^ 8)
    (d : Byte) :
    readCompose (headerByte op t) (o :: encodeTarget t ++ BitVec.ofNat 8 name.length :: name ++ [d]) =
      some (.compose o t name d, []) := by
  have hlen : name.length = (BitVec.ofNat 8 name.length).toNat := by rw [BitVec.toNat_ofNat, Nat.mod_eq_of_lt hn]
  simp only [readCompose, List.cons_append, List.append_assoc, takeByte_cons, Option.bind_some,
    takeTarget_encodeTarget, takeBytes_append hlen, Option.map_some]

theorem readChecksumOf_encode {span : List Byte} (hn : span.length < 2 ^ 32) :
    readChecksumOf (be 4 (BitVec.ofNat 32 span.length) ++ span) = some (.checksumOf span, []) := by
  have hlen : span.length = (BitVec.ofNat 32 span.length).toNat := by rw [BitVec.toNat_ofNat, Nat.mod_eq_of_lt hn]
  have hspan := takeBytes_append hlen []
  rw [List.append_nil] at hspan
  rw [readChecksumOf, takeBE_be 4 32 rfl, Option.bind_some, hspan, Option.map_some]

theorem readBuild_encode (mk : Byte → Byte → Target → Instr) (op : BitVec 3) (p d : Byte) (t : Target) :
    readBuild mk (headerByte op t) (p :: d :: encodeTarget t) = some (mk p d t, []) := by
  have htarget := takeTarget_encodeTarget op t []
  rw [List.append_nil] at htarget
  simp only [readBuild, takeByte_cons, Option.bind_some, htarget, Option.map_some]

/-- Every request decodes from its encoding to itself (D4). -/
theorem decode_encode {i : Instr} (hw : i.wellFormed = true) (hi : i.isRequest = true) : decode (encode i) = .ok i := by
  cases i with
  | reset inst =>
    apply decode_of_body
    simp [decodeBody, not_reserved_absent (op := 0b000#3) (by decide), readInst]
  | close inst =>
    apply decode_of_body
    simp [decodeBody, not_reserved_absent (op := 0b001#3) (by decide), readInst]
  | feedByte inst b => exact Machine.decode_encodeFeed inst b
  | compose o t name d =>
    apply decode_of_body
    simp only [decodeBody, not_reserved_headerByte (op := 0b011#3) t (by decide) (by decide), opField_headerByte]
    exact readCompose_encode _ o t (of_decide_eq_true hw) d
  | checksumOf span =>
    apply decode_of_body
    simp only [decodeBody, not_reserved_absent (op := 0b100#3) (by decide), opField_headerByte]
    exact readChecksumOf_encode (of_decide_eq_true hw)
  | buildDigitalOutput p on t =>
    apply decode_of_body
    simp only [decodeBody, not_reserved_headerByte (op := 0b101#3) t (by decide) (by decide), opField_headerByte]
    exact readBuild_encode _ _ p on t
  | buildPinConfig p c t =>
    apply decode_of_body
    simp only [decodeBody, not_reserved_headerByte (op := 0b110#3) t (by decide) (by decide), opField_headerByte]
    exact readBuild_encode _ _ p c t
  | reserved h => exact decode_of_body (decodeBody_reserved hw [])
  | _ => cases hi

/-- A row of the byte decode table is presented as the FEED_BYTE of its byte (R62). -/
theorem encode_row {i : Instr} {inst b : Byte} (hi : i.carriedByte = some (inst, b)) : encode i = encodeFeed inst b := by
  cases i <;> cases hi <;> rfl

/-! ### Backwards: what was read is the encoding of what it was read as -/

section Backwards
variable {h : Byte} {bs r : List Byte} {i : Instr}

theorem readInst_some {mk : Byte → Instr} (hr : readInst mk bs = some (i, r)) : ∃ inst, i = mk inst ∧ bs = inst :: r := by
  obtain ⟨⟨inst, r'⟩, h1, he⟩ := Option.map_eq_some_iff.mp hr
  obtain ⟨rfl, rfl⟩ := Prod.mk.inj he
  exact ⟨inst, rfl, takeByte_some h1⟩

theorem readFeedByte_some (hr : readFeedByte bs = some (i, r)) :
    ∃ inst b, i = .feedByte inst b ∧ bs = inst :: b :: r := by
  obtain ⟨⟨inst, r1⟩, h1, hr⟩ := Option.bind_eq_some_iff.mp hr
  obtain ⟨⟨b, r2⟩, h2, he⟩ := Option.map_eq_some_iff.mp hr
  obtain ⟨rfl, rfl⟩ := Prod.mk.inj he
  obtain rfl := takeByte_some h2
  exact ⟨inst, b, rfl, takeByte_some h1⟩

theorem readCompose_some (hr : readCompose h bs = some (i, r)) :
    ∃ o t name d, i = .compose o t name d ∧ name.length < 2 ^ 8 ∧
      bs = o :: encodeTarget t ++ BitVec.ofNat 8 name.length :: name ++ d :: r ∧
      t.frameId.isSome = hasFrameId h ∧ t.address.isSome = hasAddress h ∧ t.network.isSome = hasNetwork h := by
  obtain ⟨⟨o, r1⟩, h1, hr⟩ := Option.bind_eq_some_iff.mp hr
  obtain ⟨⟨t, r2⟩, h2, hr⟩ := Option.bind_eq_some_iff.mp hr
  obtain ⟨⟨l, r3⟩, h3, hr⟩ := Option.bind_eq_some_iff.mp hr
  obtain ⟨⟨name, r4⟩, h4, hr⟩ := Option.bind_eq_some_iff.mp hr
  obtain ⟨⟨d, r5⟩, h5, he⟩ := Option.map_eq_some_iff.mp hr
  obtain ⟨rfl, rfl⟩ := Prod.mk.inj he
  obtain rfl := takeByte_some h1
  obtain ⟨rfl, hpresent⟩ := takeTarget_some h2
  obtain rfl := takeByte_some h3
  obtain ⟨rfl, hlen⟩ := takeBytes_some h4
  obtain rfl := takeByte_some h5
  refine ⟨o, t, name, d, rfl, hlen ▸ l.isLt, ?_, hpresent⟩
  simp [hlen]

theorem readChecksumOf_some (hr : readChecksumOf bs = some (i, r)) :
    ∃ span, i = .checksumOf span ∧ span.length < 2 ^ 32 ∧ bs = be 4 (BitVec.ofNat 32 span.length) ++ span ++ r := by
  obtain ⟨⟨l, r1⟩, h1, hr⟩ := Option.bind_eq_some_iff.mp hr
  obtain ⟨⟨span, r2⟩, h2, he⟩ := Option.map_eq_some_iff.mp hr
  obtain ⟨rfl, rfl⟩ := Prod.mk.inj he
  obtain rfl := takeBE_some rfl h1
  obtain ⟨rfl, hlen⟩ := takeBytes_some h2
  refine ⟨span, rfl, hlen ▸ l.isLt, ?_⟩
  simp [hlen]

theorem readBuild_some {mk : Byte → Byte → Target → Instr} (hr : readBuild mk h bs = some (i, r)) :
    ∃ p d t, i = mk p d t ∧ bs = p :: d :: encodeTarget t ++ r ∧
      t.frameId.isSome = hasFrameId h ∧ t.address.isSome = hasAddress h ∧ t.network.isSome = hasNetwork h := by
  obtain ⟨⟨p, r1⟩, h1, hr⟩ := Option.bind_eq_some_iff.mp hr
  obtain ⟨⟨d, r2⟩, h2, hr⟩ := Option.bind_eq_some_iff.mp hr
  obtain ⟨⟨t, r3⟩, h3, he⟩ := Option.map_eq_some_iff.mp hr
  obtain ⟨rfl, rfl⟩ := Prod.mk.inj he
  obtain rfl := takeByte_some h1
  obtain rfl := takeByte_some h2
  obtain ⟨rfl, hpresent⟩ := takeTarget_some h3
  exact ⟨p, d, t, rfl, rfl, hpresent⟩

/-- The bytes spell a request that is not reserved: it is well formed, and they start with its encoding. -/
def Spells (bytes : List Byte) (i : Instr) (rest : List Byte) : Prop :=
  i.wellFormed = true ∧ i.isRequest = true ∧ (∀ h, i ≠ .reserved h) ∧ encode i ++ rest = bytes

/-- Everything a header and its body can be read as. -/
theorem decodeBody_some (hd : decodeBody h bs = some (i, r)) :
    (isReservedHeader h = true ∧ i = .reserved h) ∨ (isReservedHeader h = false ∧ Spells (h :: bs) i r) := by
  unfold decodeBody at hd
  cases hres : isReservedHeader h with
  | true =>
    rw [hres, if_pos rfl] at hd
    cases hd
    exact .inl ⟨rfl, rfl⟩
  | false =>
    refine .inr ⟨rfl, ?_⟩
    simp only [hres, Bool.false_eq_true, if_false] at hd
    have hop : ∀ op : BitVec 3, (opField h).toNat = op.toNat → opField h = op := fun _ => BitVec.eq_of_toNat_eq
    split at hd
    next h0 =>
      obtain ⟨inst, rfl, rfl⟩ := readInst_some hd
      exact ⟨rfl, rfl, nofun, by simp [encode, headerByte_absent hres (hop 0b000#3 h0) rfl]⟩
    next h1 =>
      obtain ⟨inst, rfl, rfl⟩ := readInst_some hd
      exact ⟨rfl, rfl, nofun, by simp [encode, headerByte_absent hres (hop 0b001#3 h1) rfl]⟩
    next h2 =>
      obtain ⟨inst, b, rfl, rfl⟩ := readFeedByte_some hd
      exact ⟨rfl, rfl, nofun, by simp [encode, encodeFeed, headerByte_absent hres (hop 0b010#3 h2) rfl]⟩
    next h3 =>
      obtain ⟨o, t, name, d, rfl, hlen, rfl, hf, ha, hn⟩ := readCompose_some hd
      exact ⟨decide_eq_true hlen, rfl, nofun, by simp [encode, headerByte_of_fields hres (hop 0b011#3 h3) hf ha hn]⟩
    next h4 =>
      obtain ⟨span, rfl, hlen, rfl⟩ := readChecksumOf_some hd
      exact ⟨decide_eq_true hlen, rfl, nofun, by simp [encode, headerByte_absent hres (hop 0b100#3 h4) rfl]⟩
    next h5 =>
      obtain ⟨p, d, t, rfl, rfl, hf, ha, hn⟩ := readBuild_some hd
      exact ⟨rfl, rfl, nofun, by simp [encode, headerByte_of_fields hres (hop 0b101#3 h5) hf ha hn]⟩
    next h6 =>
      obtain ⟨p, d, t, rfl, rfl, hf, ha, hn⟩ := readBuild_some hd
      exact ⟨rfl, rfl, nofun, by simp [encode, headerByte_of_fields hres (hop 0b110#3 h6) hf ha hn]⟩
    next n0 n1 n2 n3 n4 n5 n6 =>
      simp only [imp_false] at n0 n1 n2 n3 n4 n5 n6
      have hlt := (opField h).isLt
      have h7 : (opField h).toNat = 7 := by omega
      simp [isReservedHeader, hop 0b111#3 h7] at hres

/-- Everything presented bytes can be decoded as. -/
theorem decode_ok (hd : decode bs = .ok i) :
    (∃ h body, bs = h :: body ∧ isReservedHeader h = true ∧ i = .reserved h) ∨ Spells bs i [] := by
  cases bs with
  | nil => cases hd
  | cons h body =>
    simp only [decode] at hd
    split at hd
    · cases hd
    next j hb =>
      obtain rfl : j = i := Except.ok.inj hd
      rcases decodeBody_some hb with ⟨hres, hi⟩ | ⟨-, hs⟩
      · exact .inl ⟨h, body, rfl, hres, hi⟩
      · exact .inr hs
    · cases hd

/-- What is decoded is a request, never a row of the byte decode table (R62). -/
theorem isRequest_of_decode (hd : decode bs = .ok i) : i.isRequest = true := by
  rcases decode_ok hd with ⟨h, body, -, -, rfl⟩ | ⟨-, hi, -⟩
  · rfl
  · exact hi

end Backwards

/-- Which headers are reserved, in numbers (R71). -/
theorem isReservedHeader_iff (h : Byte) :
    isReservedHeader h = true ↔ h.toNat % 8 = 7 ∨ 64 ≤ h.toNat ∨
      ((h.toNat % 8 = 0 ∨ h.toNat % 8 = 1 ∨ h.toNat % 8 = 2 ∨ h.toNat % 8 = 4) ∧ h.toNat / 8 % 8 ≠ 0) := by
  revert h
  decide

namespace Machine

/-! ### The statements about the decoder -/

/-- Settles O16. -/
theorem decodeReadsBackEveryEncodedRequest : Obligations.DecodeReadsBackEveryEncodedRequest := by
  intro i hw
  refine ⟨decode_encode hw, fun inst b hi => ?_⟩
  rw [encode_row hi, decode_encodeFeed]

/-- Settles O17. -/
theorem everyDecodedRequestHasOneSpelling : Obligations.EveryDecodedRequestHasOneSpelling := by
  intro bs i hd
  rcases decode_ok hd with ⟨h, body, -, hres, rfl⟩ | ⟨hw, hi, -, henc⟩
  · exact ⟨hres, rfl, fun hne => absurd rfl (hne h)⟩
  · exact ⟨hw, hi, fun _ => by rwa [List.append_nil] at henc⟩

/-- Settles O18: the reserved headers in numbers, and a header that is not reserved spells no reserved request. -/
theorem reservedHeadersAreExactlyThese : Obligations.ReservedHeadersAreExactlyThese := by
  intro h body
  constructor
  · intro hres
    exact decode_of_body (decodeBody_reserved ((isReservedHeader_iff h).mpr hres) body)
  · intro hres k hd
    rcases decode_ok hd with ⟨h', body', hcons, hres', -⟩ | ⟨-, -, hne, -⟩
    · obtain ⟨rfl, -⟩ := List.cons.inj hcons
      exact hres ((isReservedHeader_iff h).mp hres')
    · exact hne k rfl

/-- Settles O15: each word is decoded as it is written. -/
theorem requestsDecodeAsTheSpecWritesThem : Obligations.RequestsDecodeAsTheSpecWritesThem :=
  ⟨rfl, rfl, rfl, rfl, rfl, rfl, rfl, rfl, rfl, rfl, rfl⟩

/-! ### The step on what is presented (R14, D2) -/

section Presented
variable {s : State} {bs : List Byte} {rest : List Input} {i : Instr}

/-- The step on a request that decodes is its operation. -/
theorem step_request (hp : s.pending = .request bs :: rest) (hd : decode bs = .ok i) :
    step s = exec i { s with pending := rest } := by
  simp only [step, hp, hd]

theorem step_malformed {e : DecodeError} (hp : s.pending = .request bs :: rest) (hd : decode bs = .error e) :
    step s = .refused (.malformedRequest e) := by
  simp only [step, hp, hd]

theorem step_hardwareReset (hp : s.pending = .hardwareReset :: rest) :
    step s = .next { s with pending := rest }.hardwareReset := by
  simp only [step, hp]

theorem step_idle (hp : s.pending = []) : step s = .next s.quiet := by
  simp only [step, hp]

end Presented

/-- Every request is answered with a next state (logs 6, 7 and 18). -/
theorem exec_request_next {i : Instr} (hi : i.isRequest = true) (s : State) : ∃ t, exec i s = .next t := by
  cases i with
  | seekHeaderHeader | seekHeaderDiscard | expectLengthHighZero | expectLengthHighResync => cases hi
  | readLengthLowLength | collectPayload | collectFrameOk | collectFrameBad => cases hi
  | _ => exact ⟨_, rfl⟩

/-- A well-formed operation is presented as a request. -/
theorem decode_encode_isRequest {i : Instr} (hw : i.wellFormed = true) :
    ∃ j, decode (encode i) = .ok j ∧ j.isRequest = true := by
  cases hi : i.carriedByte with
  | none =>
    have hreq : i.isRequest = true := by simp [Instr.isRequest, hi]
    exact ⟨i, decode_encode hw hreq, hreq⟩
  | some c => exact ⟨.feedByte c.1 c.2, by rw [encode_row hi, decode_encodeFeed], rfl⟩

/-- Settles O6: only a row presented by itself stops with a fault, and no row is ever decoded. -/
theorem stepNeverStopsWithAFault : Obligations.StepNeverStopsWithAFault := by
  intro s f h
  cases hp : s.pending with
  | nil =>
    rw [step_idle hp] at h
    cases h
  | cons input rest =>
    cases input with
    | hardwareReset =>
      rw [step_hardwareReset hp] at h
      cases h
    | request bs =>
      cases hd : decode bs with
      | error e =>
        rw [step_malformed hp hd] at h
        cases h
      | ok i =>
        obtain ⟨t, ht⟩ := exec_request_next (isRequest_of_decode hd) { s with pending := rest }
        rw [step_request hp hd, ht] at h
        cases h

/-- Settles O7. -/
theorem everySpellableRequestIsServed : Obligations.EverySpellableRequestIsServed := by
  intro s i rest hw hp
  obtain ⟨j, hd, hj⟩ := decode_encode_isRequest hw
  obtain ⟨t, ht⟩ := exec_request_next hj { s with pending := rest }
  exact ⟨t, (step_request hp hd).trans ht, effect_pending (exec_effect ht)⟩

/-- Settles O2. -/
theorem stepRunsTheDecodedRequest : Obligations.StepRunsTheDecodedRequest :=
  fun _ _ _ _ hp hd => step_request hp hd

/-- Settles O5. -/
theorem bytesOfNoRequestAreRefusedByName : Obligations.BytesOfNoRequestAreRefusedByName :=
  fun _ _ _ _ hp hd => step_malformed hp hd

/-- Settles O3. -/
theorem stepWithNothingPresentedChangesNoRegister : Obligations.StepWithNothingPresentedChangesNoRegister :=
  fun _ hp => step_idle hp

/-- Settles O4. -/
theorem hardwareResetReinitialisesEveryInstance : Obligations.HardwareResetReinitialisesEveryInstance := by
  intro s rest hp
  refine ⟨_, step_hardwareReset hp, rfl, rfl, rfl, List.length_map _, ?_⟩
  intro inst p hinst
  have hmap : ({ s with pending := rest }.hardwareReset).parser? inst = (s.parser? inst).map Parser.recreate :=
    List.getElem?_map
  rw [hmap, hinst]
  rfl

/-- Settles O1. -/
theorem resetStateIsInitial : Obligations.ResetStateIsInitial := by
  refine ⟨List.length_replicate, Nat.succ_pos _, ?_, rfl, rfl, rfl⟩
  intro inst hlt
  exact List.getElem?_replicate_of_lt hlt

/-! ### Table words -/

/-- The step of the state that is presented a table word, whose request decodes. -/
theorem step_withFetchWord {s : State} {nbits w : Nat} {i : Instr} (hd : decode (requestOfWord nbits w) = .ok i) :
    step (s.withFetchWord nbits w) = exec i s :=
  step_request (s := s.withFetchWord nbits w) rfl hd

/-- The one byte that is read as a row is the marker (log 11). -/
theorem word_of_isByteRowWord {nbits w : Nat} (h : isByteRowWord nbits w = true) : w = 0x7E := by
  simp only [isByteRowWord, Bool.and_eq_true, beq_iff_eq] at h
  exact h.2

/-- Settles O22: a word that is read as a request is presented as that request; the one that is read as a row is presented
as the FEED_BYTE of the marker, which runs that row in SeekHeader. -/
theorem presentedTableWordRuns : Obligations.PresentedTableWordRuns := by
  intro s nbits w i hi
  unfold decodeTableWord at hi
  cases hrow : isByteRowWord nbits w with
  | true =>
    obtain rfl := word_of_isByteRowWord hrow
    obtain rfl : Instr.seekHeaderHeader 0 = i := by rw [hrow] at hi; exact Option.some.inj hi
    refine ⟨nofun, fun _ p hlive hphase => ?_⟩
    have hfeed : decode (requestOfWord nbits 0x7E) = .ok (.feedByte 0 0x7E#8) := by
      rw [requestOfWord, hrow]
      exact decode_encodeFeed _ _
    have hselected := exec_decodeByte_live (b := 0x7E#8) hlive
    rw [hphase, decodeByte_header] at hselected
    rw [step_withFetchWord hfeed, exec_feedByte_live hlive, hselected]
  | false =>
    have hd : decode (requestOfWord nbits w) = .ok i := by
      simp only [hrow, Bool.false_eq_true, if_false] at hi
      cases hdec : decode (requestOfWord nbits w) with
      | error e => rw [hdec] at hi; cases hi
      | ok j => rw [hdec] at hi; rw [Option.some.inj hi]
    exact ⟨fun _ => step_withFetchWord hd, fun hi' => absurd (isRequest_of_decode hd) (by simp [hi'])⟩

end Machine

end Sys2Proof
end

section
/-! PROOFS. The codec (spec/40_codec.md R90 to R100): the answers of COMPOSE, CHECKSUM_OF and the convenience constructors,
and the operand values read back from a frame. -/

namespace Sys2Proof.Machine

/-! ### COMPOSE -/

/-- COMPOSE with a name of another length reports the length (R94, R162). -/
theorem exec_compose_wrong_length {o d : Byte} {t : Target} {n : List Byte} (h : n.length ≠ 2) (s : State) :
    exec (.compose o t n d) s = .next (s.answer (.raised (.cmdNameLength n.length))) := by
  rw [exec_compose, execCompose, compose_wrong_length h]
  rfl

/-- Settles O36. -/
theorem wrongLengthNameIsAContractViolation : Obligations.WrongLengthNameIsAContractViolation :=
  fun s _ _ _ _ h => exec_compose_wrong_length h s

/-- A frame is answered for a two-byte name only, and it is the envelope of the covered bytes. -/
theorem frame_of_exec_compose {o d : Byte} {t : Target} {n f : List Byte} {s r : State}
    (h : exec (.compose o t n d) s = .next r) (hf : r.out.reply = some (.frame f)) :
    n.length = 2 ∧ f = envelope (composedPayload o t n d) := by
  by_cases hn : n.length = 2
  · rw [exec_compose_ok hn] at h
    cases h
    exact ⟨hn, (Reply.frame.inj (Option.some.inj hf)).symm⟩
  · rw [exec_compose_wrong_length hn] at h
    cases h
    cases hf

/-- The fields of a composed frame, each read from its place on the wire (R61, R63). -/
theorem frameFields_envelope (o d : Byte) (t : Target) {n : List Byte} (hn : n.length = 2) :
    frameFields (envelope (composedPayload o t n d)) =
      { frameId := frameIdOf t, address := BitVec.ofNat 64 (ofBE (be 8 (addressOf t))),
        network := BitVec.ofNat 16 (ofBE (be 2 (networkOf t))), options := o, name := n, data := d } := by
  obtain ⟨n0, n1, rfl⟩ := List.length_eq_two.mp hn
  rfl

/-- A field as wide as its bytes is read back whole (R100). -/
theorem ofNat_ofBE_be {n w : Nat} (h : w = 8 * n) (v : BitVec w) : BitVec.ofNat w (ofBE (be n v)) = v := by
  have hpow : 256 ^ n = 2 ^ w := by rw [h, Nat.pow_mul]
  rw [ofBE_be, hpow, Nat.mod_eq_of_lt v.isLt, BitVec.ofNat_toNat, BitVec.setWidth_eq]

/-- Settles O41: the multi-byte operands are read back from the bytes that spell them. -/
theorem composedFrameDeterminesItsOperands : Obligations.ComposedFrameDeterminesItsOperands := by
  intro s r o d t n f h hf
  obtain ⟨hn, rfl⟩ := frame_of_exec_compose h hf
  rw [frameFields_envelope o d t hn, ofNat_ofBE_be (n := 8) (w := 64) rfl,
    ofNat_ofBE_be (n := 2) (w := 16) rfl]
  rfl

/-! ### CHECKSUM_OF -/

/-- The checksum does not depend on the order of the bytes (R98). -/
theorem checksum_perm {xs ys : List Byte} (h : xs.Perm ys) : checksum xs = checksum ys := by
  have hsum : (xs.map BitVec.toNat).sum = (ys.map BitVec.toNat).sum := (h.map BitVec.toNat).sum_eq
  rw [checksum_eq_ofNat, checksum_eq_ofNat, hsum]

/-- Settles O37. -/
theorem checksumOfComplementsTheByteSum : Obligations.ChecksumOfComplementsTheByteSum := by
  intro s span
  refine ⟨⟨checksum span, checksum_toNat span, exec_checksumOf span s⟩, fun other h => ?_⟩
  rw [exec_checksumOf, exec_checksumOf, checksum_perm h]

/-- A byte completes the sum of a span to 0xFF exactly if it is its checksum (R99). -/
theorem completes_iff_checksum (xs : List Byte) (c : Byte) : sum8 xs + c = 0xFF#8 ↔ c = checksum xs :=
  completes_iff (sum8 xs) c

/-- Settles O38: CHECKSUM_OF answers with one byte, the checksum. -/
theorem checksumByteIsTheOnlyOneThatCompletesTheSum : Obligations.ChecksumByteIsTheOnlyOneThatCompletesTheSum := by
  intro s span c
  rw [completes_iff_checksum, exec_checksumOf]
  constructor
  · rintro rfl
    rfl
  · intro h
    have hout := congrArg State.out (Host.Outcome.next.inj h)
    exact (Reply.checksum.inj (Option.some.inj (congrArg Output.reply hout))).symm

/-! ### The convenience constructors -/

theorem exec_buildDigitalOutput (pin on : Byte) (t : Target) (s : State) :
    exec (.buildDigitalOutput pin on t) s = .next (s.answerFrame (composeForPin pin t (digitalData on))) := by
  rfl

theorem exec_buildPinConfig (pin config : Byte) (t : Target) (s : State) :
    exec (.buildPinConfig pin config t) s = .next (s.answerFrame (composeForPin pin t config)) := by
  rfl

/-- What a convenience constructor answers for an admitted pin is what COMPOSE answers for the pin's name (R96, R97). -/
theorem exec_compose_pin {pin : Byte} (h : pin.toNat ≤ 7) (d : Byte) (t : Target) (s : State) :
    exec (.compose 0x02#8 t [0x44#8, BitVec.ofNat 8 (48 + pin.toNat)] d) s =
      .next (s.answerFrame (composeForPin pin t d)) := by
  rw [exec_compose, execCompose, composeForPin_ok h]

/-- For an admitted pin the answer is a frame of 20 bytes, and nothing else changes. -/
theorem answerFrame_pin {pin : Byte} (h : pin.toNat ≤ 7) (d : Byte) (t : Target) (s : State) :
    ∃ f : List Byte, s.answerFrame (composeForPin pin t d) = s.answer (.frame f) ∧ f.length = 20 := by
  refine ⟨envelope (composedPayload 0x02#8 t [0x44#8, BitVec.ofNat 8 (48 + pin.toNat)] d), ?_, ?_⟩
  · rw [composeForPin_ok h, compose_ok rfl, State.answerFrame]
  · rw [envelope_length, composedPayload_length rfl]

/-- For any other pin the answer is PIN_RANGE (D9). -/
theorem answerFrame_pin_out_of_range {pin : Byte} (h : 7 < pin.toNat) (d : Byte) (t : Target) (s : State) :
    s.answerFrame (composeForPin pin t d) = s.answer (.raised (.pinRange pin)) := by
  rw [composeForPin_out_of_range h]
  rfl

/-- The data byte of on and off (R68). -/
theorem digitalData_eq (on : Byte) : digitalData on = if on = 0x00#8 then Config.digitalLow else 0x05#8 := by
  by_cases h : on = 0x00#8 <;> simp [digitalData, h, Config.digitalHigh]

/-- Settles O39. -/
theorem buildDigitalOutputComposesThePinFrame : Obligations.BuildDigitalOutputComposesThePinFrame := by
  intro s pin on t
  rw [exec_buildDigitalOutput]
  constructor
  · intro h
    obtain ⟨f, hf, hlen⟩ := answerFrame_pin h (digitalData on) t s
    exact ⟨f, congrArg Host.Outcome.next hf, hlen, by rw [← digitalData_eq, exec_compose_pin h]⟩
  · intro h
    exact congrArg Host.Outcome.next (answerFrame_pin_out_of_range h _ t s)

/-- Settles O40. -/
theorem buildPinConfigComposesThePinFrame : Obligations.BuildPinConfigComposesThePinFrame := by
  intro s pin config t
  rw [exec_buildPinConfig]
  refine ⟨fun h => ?_, fun h => ?_, fun on hon => ?_⟩
  · obtain ⟨f, hf, hlen⟩ := answerFrame_pin h config t s
    exact ⟨f, congrArg Host.Outcome.next hf, hlen, exec_compose_pin h config t s⟩
  · exact congrArg Host.Outcome.next (answerFrame_pin_out_of_range h _ t s)
  · rw [exec_buildPinConfig, exec_buildDigitalOutput, digitalData_eq, if_neg hon]

/-! ### The codec writes no register -/

/-- Answering with a frame or with a contract violation changes nothing but the outputs, and these do not depend on the
state (R20, R162). -/
theorem answerFrame_outputs {c : Except Exceptional (List Byte)}
    (hc : ∀ e, c = .error e → (∃ k, e = .cmdNameLength k) ∨ ∃ pin, e = .pinRange pin) :
    ∃ out : Output, out.event = none ∧ out.frame = none ∧ ∀ s : State, s.answerFrame c = { s with out := out } := by
  cases c with
  | ok f => exact ⟨⟨none, none, some (.frame f)⟩, rfl, rfl, fun _ => rfl⟩
  | error e =>
    refine ⟨⟨none, none, some (.raised e)⟩, rfl, rfl, fun s => ?_⟩
    rcases hc e rfl with ⟨k, rfl⟩ | ⟨pin, rfl⟩ <;> rfl

theorem composeForPin_outputs (pin d : Byte) (t : Target) :
    ∃ out : Output, out.event = none ∧ out.frame = none ∧
      ∀ s : State, s.answerFrame (composeForPin pin t d) = { s with out := out } :=
  answerFrame_outputs fun _ he => .inr ⟨pin, composeForPin_error he⟩

/-- Settles O42. -/
theorem codecDependsOnItsOperandsAlone : Obligations.CodecDependsOnItsOperandsAlone := by
  rintro i (⟨o, t, n, d, rfl⟩ | ⟨span, rfl⟩ | ⟨pin, on, t, rfl⟩ | ⟨pin, config, t, rfl⟩)
  · obtain ⟨out, hevent, hframe, hout⟩ :=
      answerFrame_outputs (c := compose o t n d) fun _ he => .inl ⟨n.length, compose_error he⟩
    exact ⟨out, hevent, hframe, fun s => congrArg Host.Outcome.next (hout s)⟩
  · exact ⟨⟨none, none, some (.checksum (checksum span))⟩, rfl, rfl, exec_checksumOf span⟩
  · obtain ⟨out, hevent, hframe, hout⟩ := composeForPin_outputs pin (digitalData on) t
    exact ⟨out, hevent, hframe, fun s => congrArg Host.Outcome.next (hout s)⟩
  · obtain ⟨out, hevent, hframe, hout⟩ := composeForPin_outputs pin config t
    exact ⟨out, hevent, hframe, fun s => congrArg Host.Outcome.next (hout s)⟩

end Sys2Proof.Machine
end

section
/-! PROOFS. One byte of a live instance (spec/30_encoding.md R72, spec/41_parser.md R123 to R136): which row it is, said once
for every phase, and what each law of the parser reads off that row. -/

namespace Sys2Proof.Machine

/-! ### Every consumed byte is one of the eight rows -/

/-- The rows of R124 to R131, each with the registers and the byte that select it. -/
inductive Row (p : Parser) (b : Byte) : ParserStep → Prop where
  | header (hp : p.phase = .seekHeader) (hb : b = 0x7E#8) : Row p b (rowSeekHeaderHeader p)
  | discard (hp : p.phase = .seekHeader) (hb : b ≠ 0x7E#8) : Row p b (rowSeekHeaderDiscard p)
  | zero (hp : p.phase = .expectLengthHigh) (hb : b = 0x00#8) : Row p b (rowExpectLengthHighZero p)
  | resync (hp : p.phase = .expectLengthHigh) (hb : b ≠ 0x00#8) : Row p b (rowExpectLengthHighResync p)
  | length (hp : p.phase = .readLengthLow) : Row p b (rowReadLengthLowLength p b)
  | payload (hp : p.phase = .collect) (hr : p.remainingLength ≠ 0x00#8) : Row p b (rowCollectPayload p b)
  | frameOk (hp : p.phase = .collect) (hr : p.remainingLength = 0x00#8) (hc : p.runningChecksum + b = 0xFF#8) :
      Row p b (rowCollectFrameOk p)
  | frameBad (hp : p.phase = .collect) (hr : p.remainingLength = 0x00#8) (hc : p.runningChecksum + b ≠ 0xFF#8) :
      Row p b (rowCollectFrameBad p)

/-- Everything a consumed byte can do. -/
theorem consume_row (p : Parser) (b : Byte) : Row p b (consume p b) := by
  cases hp : p.phase with
  | seekHeader =>
    rw [consume_seekHeader hp]
    split
    next hb => exact .header hp hb
    next hb => exact .discard hp hb
  | expectLengthHigh =>
    rw [consume_expectLengthHigh hp]
    split
    next hb => exact .zero hp hb
    next hb => exact .resync hp hb
  | readLengthLow =>
    rw [consume_readLengthLow hp]
    exact .length hp
  | collect =>
    by_cases hr : p.remainingLength = 0x00#8
    · rw [consume_collect_end hp hr]
      split
      next hc => exact .frameOk hp hr hc
      next hc => exact .frameBad hp hr hc
    · rw [consume_collect_payload hp hr]
      exact .payload hp hr

section Rows
variable {p : Parser} {b : Byte} {r : ParserStep}

/-- A payload is emitted exactly with EV_FRAME_OK (R29). -/
theorem row_emitted_iff (h : Row p b r) : r.emitted.isSome = true ↔ r.event = .frameOk := by
  cases h with
  | frameOk => exact iff_of_true rfl rfl
  | _ => exact iff_of_false nofun nofun

/-- A frame that is completed, dropped or given up returns the instance to SeekHeader (R136, D6). -/
theorem row_toSeek (h : Row p b r) (he : r.event = .frameOk ∨ r.event = .frameBad ∨ r.event = .resync) :
    r.parser = p.toSeek := by
  cases h with
  | resync | frameOk | frameBad => rfl
  | _ => rcases he with he | he | he <;> cases he

end Rows

/-! ### The rows as operations -/

/-- On a live instance a row runs, if the registers select it, or stops with the fault of log 10. -/
theorem runRow_live {s : State} {inst b : Byte} {p : Parser} (h : s.Live inst p) (sel : Parser → Bool)
    (row : Parser → ParserStep) : sel p = true ∨ runRow inst b sel row s = .fault (.rowNotSelected p.phase) := by
  cases hsel : sel p with
  | true => exact .inl rfl
  | false => exact .inr (by simp [runRow, feedable_of_live h, hsel])

/-- On a live instance every row of a byte but the selected one has no transition (R72). -/
theorem exec_other_row {s : State} {inst b : Byte} {p : Parser} (h : s.Live inst p) {i : Instr}
    (hi : i.carriedByte = some (inst, b)) (hne : i ≠ decodeByte p.phase p.remainingLength p.runningChecksum inst b) :
    exec i s = .fault (.rowNotSelected p.phase) := by
  have key : ∀ (sel : Parser → Bool) (row : Parser → ParserStep),
      (sel p = true → decodeByte p.phase p.remainingLength p.runningChecksum inst b = i) →
      runRow inst b sel row s = .fault (.rowNotSelected p.phase) := fun sel row hsel =>
    (runRow_live h sel row).resolve_left fun hs => hne (hsel hs).symm
  cases i with
  | seekHeaderHeader =>
    cases hi
    refine key _ _ fun hs => ?_
    rw [beq_iff_eq.mp hs]
    rfl
  | seekHeaderDiscard =>
    cases hi
    refine key _ _ fun hs => ?_
    simp only [Bool.and_eq_true, beq_iff_eq, bne_iff_ne] at hs
    rw [hs.1, decodeByte_discard _ _ _ hs.2]
  | expectLengthHighZero =>
    cases hi
    refine key _ _ fun hs => ?_
    rw [beq_iff_eq.mp hs]
    rfl
  | expectLengthHighResync =>
    cases hi
    refine key _ _ fun hs => ?_
    simp only [Bool.and_eq_true, beq_iff_eq, bne_iff_ne] at hs
    rw [hs.1, decodeByte_resync _ _ _ hs.2]
  | readLengthLowLength =>
    cases hi
    refine key _ _ fun hs => ?_
    rw [beq_iff_eq.mp hs, decodeByte_length]
  | collectPayload =>
    cases hi
    refine key _ _ fun hs => ?_
    simp only [Bool.and_eq_true, beq_iff_eq, bne_iff_ne] at hs
    rw [hs.1, decodeByte_payload _ _ hs.2]
  | collectFrameOk =>
    cases hi
    refine key _ _ fun hs => ?_
    simp only [checksumMatches, Config.checkTarget, Bool.and_eq_true, beq_iff_eq] at hs
    rw [hs.1.1, hs.1.2, decodeByte_frameOk _ hs.2]
  | collectFrameBad =>
    cases hi
    refine key _ _ fun hs => ?_
    simp only [checksumMatches, Config.checkTarget, Bool.and_eq_true, beq_iff_eq, Bool.not_eq_true',
      beq_eq_false_iff_ne] at hs
    rw [hs.1.1, hs.1.2, decodeByte_frameBad _ hs.2]
  | _ => cases hi

/-- The byte decoder gives a row of its byte, with the byte match of that row (R72). -/
theorem decodeByte_is_row (phase : Phase) (rl rc inst b : Byte) :
    (decodeByte phase rl rc inst b).wellFormed = true ∧ (decodeByte phase rl rc inst b).carriedByte = some (inst, b) := by
  cases phase with
  | seekHeader =>
    by_cases hb : b = 0x7E#8
    · rw [hb]; exact ⟨rfl, rfl⟩
    · rw [decodeByte_discard _ _ _ hb]; exact ⟨by simpa [Instr.wellFormed, Config.header] using hb, rfl⟩
  | expectLengthHigh =>
    by_cases hb : b = 0x00#8
    · rw [hb]; exact ⟨rfl, rfl⟩
    · rw [decodeByte_resync _ _ _ hb]; exact ⟨by simpa [Instr.wellFormed, Config.lenHiRequired] using hb, rfl⟩
  | readLengthLow => exact ⟨rfl, rfl⟩
  | collect =>
    unfold decodeByte
    dsimp only
    split
    · exact ⟨rfl, rfl⟩
    · split <;> exact ⟨rfl, rfl⟩

/-- Settles O21. -/
theorem byteDecodeTableSelectsExactlyOneRow : Obligations.ByteDecodeTableSelectsExactlyOneRow := by
  intro s inst b p hlive row
  obtain ⟨hwell, hcarried⟩ := decodeByte_is_row p.phase p.remainingLength p.runningChecksum inst b
  refine ⟨hwell, hcarried, ?_, fun i _ hi hne => exec_other_row hlive hi hne⟩
  rw [exec_feedByte_live hlive, exec_decodeByte_live hlive]

/-- Settles O29: any byte but 0x00 selects the resync row. -/
theorem nonzeroLengthHighByteResyncs : Obligations.NonzeroLengthHighByteResyncs := by
  intro s inst b p i hlive hphase hb hi
  rw [exec_feed_or_row hlive (by rwa [hphase, decodeByte_resync _ _ _ hb]), consume_expectLengthHigh hphase, if_neg hb,
    rowExpectLengthHighResync, Parser.toSeek]

/-- The sum with a byte is 0xFF exactly if it is 255 modulo 256 as a number. -/
theorem completes_iff_toNat (rc b : Byte) : rc + b = 0xFF#8 ↔ (rc.toNat + b.toNat) % 256 = 255 := by
  rw [← BitVec.toNat_inj, BitVec.toNat_add]
  rfl

/-- Settles O32: a byte that completes the sum selects the frame_ok row. -/
theorem validChecksumEmitsThePayload : Obligations.ValidChecksumEmitsThePayload := by
  intro s inst b p i hlive hphase hr hsum hi
  have hc := (completes_iff_toNat _ _).mpr hsum
  rw [exec_feed_or_row hlive (by rwa [hphase, hr, decodeByte_frameOk _ hc]), consume_collect_end hphase hr, if_pos hc,
    rowCollectFrameOk, Parser.toSeek]

/-- Settles O33: any other byte selects the frame_bad row. -/
theorem invalidChecksumDropsTheFrame : Obligations.InvalidChecksumDropsTheFrame := by
  intro s inst b p i hlive hphase hr hsum hi
  have hc := fun h => hsum ((completes_iff_toNat p.runningChecksum b).mp h)
  rw [exec_feed_or_row hlive (by rwa [hphase, hr, decodeByte_frameBad _ hc]), consume_collect_end hphase hr, if_neg hc,
    rowCollectFrameBad, Parser.toSeek]

/-! ### What a FEED_BYTE drives -/

/-- FEED_BYTE takes an exceptional outcome, or a live instance consumes its byte. -/
theorem feedByte_cases (inst b : Byte) (s : State) :
    (∃ e, feedable inst b s = .error e ∧ feedByte inst b s = s.raise e) ∨
      ∃ p, s.Live inst p ∧ feedByte inst b s = s.commit inst (consume p b) := by
  cases hf : feedable inst b s with
  | error e => exact .inl ⟨e, rfl, feedByte_error hf⟩
  | ok p => exact .inr ⟨p, feedable_ok_iff.mp hf, feedByte_live hf⟩

/-- An event is driven by a live instance that consumes its byte, and by nothing else. -/
theorem live_of_feedByte_event {s : State} {inst b : Byte} {e : Event} (h : (feedByte inst b s).out.event = some e) :
    ∃ p, s.Live inst p ∧ feedByte inst b s = s.commit inst (consume p b) ∧ (consume p b).event = e := by
  rcases feedByte_cases inst b s with ⟨x, -, heq⟩ | ⟨p, hlive, heq⟩
  · simp [heq, raise_out] at h
  · rw [heq] at h
    exact ⟨p, hlive, heq, Option.some.inj h⟩

/-- A payload is emitted by a live instance that consumes its byte, and by nothing else. -/
theorem live_of_feedByte_frame {s : State} {inst b : Byte} {f : List Byte} (h : (feedByte inst b s).out.frame = some f) :
    ∃ p, s.Live inst p ∧ (consume p b).emitted = some f := by
  rcases feedByte_cases inst b s with ⟨x, -, heq⟩ | ⟨p, hlive, heq⟩
  · simp [heq, raise_out] at h
  · rw [heq] at h
    exact ⟨p, hlive, h⟩

/-- Settles O43. -/
theorem noByteIsAnException : Obligations.NoByteIsAnException := by
  intro s inst b p hlive
  refine ⟨_, _, _, exec_feedByte_live hlive, rfl, rfl, rfl, live_commit hlive, fun he => ?_⟩
  have hnone : ¬ (consume p b).emitted.isSome = true := by
    rw [row_emitted_iff (consume_row p b)]
    rcases he with he | he | he <;> simp [he]
  exact Option.not_isSome_iff_eq_none.mp hnone

/-- Settles O44: of everything an operation can do, only a consumed byte drives the event and the frame output. -/
theorem frameOutputExactlyWithFrameOk : Obligations.FrameOutputExactlyWithFrameOk := by
  intro i s t h
  cases exec_effect h with
  | raised e _ => simp [raise_out]
  | consumed inst b p hi hlive =>
    refine ⟨by simpa using row_emitted_iff (consume_row p b), fun _ => hi.imp (fun hi => ⟨inst, b, hi⟩) fun hi => ?_⟩
    simp [Instr.isRequest, hi]
  | _ => simp [Output.none]

/-- Settles O45: by the register invariant the accumulator is the sum of the emitted payload. -/
theorem onlyACompleteCheckedPayloadIsEmitted : Obligations.OnlyACompleteCheckedPayloadIsEmitted := by
  intro s t inst b f hinv h hframe
  obtain rfl : feedByte inst b s = t := Host.Outcome.next.inj h
  obtain ⟨p, hlive, hemitted⟩ := live_of_feedByte_frame hframe
  obtain ⟨hphase, hr, rfl, hsum⟩ := consume_emitted hemitted
  have hp : p.Inv := hinv p (parser?_mem hlive.1)
  have hrc : p.runningChecksum = sum8 p.payload := by
    rw [Parser.Inv, if_pos hphase] at hp
    exact hp.1
  rw [hrc] at hsum
  refine ⟨p, hlive, hphase, hr, rfl, payload_length_le hp, hsum, ?_⟩
  rw [(completes_iff_checksum _ _).mp hsum]
  exact exec_checksumOf p.payload s

/-- Settles O46. -/
theorem completionDropAndResyncReturnToTheInitialState : Obligations.CompletionDropAndResyncReturnToTheInitialState := by
  intro s t inst b h he
  obtain rfl : feedByte inst b s = t := Host.Outcome.next.inj h
  obtain ⟨e, hevent, he⟩ :
      ∃ e, (feedByte inst b s).out.event = some e ∧ (e = .frameOk ∨ e = .frameBad ∨ e = .resync) := by
    rcases he with he | he | he <;> exact ⟨_, he, by simp⟩
  obtain ⟨p, hlive, heq, rfl⟩ := live_of_feedByte_event hevent
  rw [heq, parser?_commit_same hlive.1, row_toSeek (consume_row p b) he, toSeek_of_live hlive]
  rfl

end Sys2Proof.Machine
end

section
/-! PROOFS. Many bytes of one instance: whole frames (spec/30_encoding.md R60, spec/41_parser.md R132 to R140), and the
soundness of what is emitted. -/

namespace Sys2Proof.Machine

/-! ### A whole frame fed to an instance that scans for the marker -/

section Frames
variable {s : State} {inst : Byte} {p : Parser} {payload bad : List Byte} {check : Byte}

/-- A frame whose length byte is right and whose last byte completes the sum emits its payload (R130). -/
theorem feed_frame_ok (h : s.Live inst p) (hp : p.phase = .seekHeader) (hlen : payload.length ≤ 255)
    (hsum : sum8 payload + check = 0xFF#8) :
    let frame : List Byte := [0x7E#8, 0x00#8, BitVec.ofNat 8 payload.length] ++ payload ++ [check]
    (feed inst frame s).2 = [payload] ∧
      (feed inst frame s).1.parsers = s.parsers.set inst.toNat Parser.initial ∧
      (feedOutputs inst frame s).map Output.event =
        [some .header, some .lenHi, some .lenLo] ++ payload.map (fun _ => some .payload) ++ [some .frameOk] := by
  intro frame
  have hL : payload.length = (BitVec.ofNat 8 payload.length).toNat := by rw [BitVec.toNat_ofNat]; omega
  obtain ⟨hparsers, hpayloads, houtputs, -⟩ := feed_live frame h
  rw [runBytes_frame hp _ payload hL, if_pos hsum] at hparsers hpayloads houtputs
  exact ⟨by simp [hpayloads], by rw [hparsers, toSeek_of_live h], by simp [houtputs]⟩

/-- The same frame with a last byte that does not complete the sum is dropped (R131). -/
theorem feed_frame_bad (h : s.Live inst p) (hp : p.phase = .seekHeader) (hlen : payload.length ≤ 255)
    (hbad : bad.length = payload.length) (hsum : sum8 bad + check ≠ 0xFF#8) :
    let frame : List Byte := [0x7E#8, 0x00#8, BitVec.ofNat 8 payload.length] ++ bad ++ [check]
    (feed inst frame s).2 = [] ∧
      ((feedOutputs inst frame s).map Output.event).getLast? = some (some .frameBad) ∧
      (feed inst frame s).1.parsers = s.parsers.set inst.toNat Parser.initial := by
  intro frame
  have hL : bad.length = (BitVec.ofNat 8 payload.length).toNat := by rw [BitVec.toNat_ofNat]; omega
  obtain ⟨hparsers, hpayloads, houtputs, -⟩ := feed_live frame h
  rw [runBytes_frame hp _ bad hL, if_neg hsum] at hparsers hpayloads houtputs
  exact ⟨by simp [hpayloads], by simp [houtputs, List.getLast?_cons], by rw [hparsers, toSeek_of_live h]⟩

end Frames

/-- Settles O54: the checksum is the byte that completes the sum of the payload. -/
theorem everyFramedPayloadIsEmitted : Obligations.EveryFramedPayloadIsEmitted := by
  intro s inst p payload hlive hphase hlen
  obtain ⟨hemitted, hparsers, -⟩ :=
    feed_frame_ok hlive hphase hlen ((completes_iff_checksum payload _).mpr rfl)
  exact ⟨hemitted, hparsers⟩

/-- Settles O56: the frame COMPOSE answers with is the envelope of the 16 covered bytes. -/
theorem composedFrameRoundTripsThroughTheParser : Obligations.ComposedFrameRoundTripsThroughTheParser := by
  intro s r inst p o d t name f h hf hlive hphase
  obtain ⟨hname, rfl⟩ := frame_of_exec_compose h hf
  have hlen : (composedPayload o t name d).length = 16 := composedPayload_length hname
  have hcovered : ((envelope (composedPayload o t name d)).drop 3).take 16 = composedPayload o t name d :=
    hlen ▸ envelope_covered _
  rw [hcovered]
  exact ⟨everyFramedPayloadIsEmitted s inst p _ hlive hphase (by omega), rfl⟩

/-- Settles O53: the frame is the envelope of the empty payload. -/
theorem emptyFrameIsAccepted : Obligations.EmptyFrameIsAccepted := by
  intro s inst p hlive hphase
  obtain ⟨hemitted, -, hevents⟩ := feed_frame_ok (payload := []) (check := 0xFF#8) hlive hphase (by decide) rfl
  exact ⟨hevents, hemitted⟩

/-! ### One byte of the frame changed -/

/-- Changing one byte of a sequence changes its sum (R139). -/
theorem sum8_set_ne {xs : List Byte} {k : Nat} {c : Byte} (hk : k < xs.length) (hc : xs[k]? ≠ some c) :
    sum8 (xs.set k c) ≠ sum8 xs := by
  intro hsum
  have hsplit : xs = xs.take k ++ xs[k] :: xs.drop (k + 1) := by simp
  rw [List.set_eq_take_append_cons_drop, if_pos hk] at hsum
  conv at hsum => rhs; rw [hsplit]
  simp only [sum8_append, sum8_cons, BitVec.add_right_inj, BitVec.add_left_inj] at hsum
  rw [List.getElem?_eq_getElem hk, hsum] at hc
  exact hc rfl

/-- Settles O57: a changed payload byte changes the sum, and a changed checksum byte no longer completes it. -/
theorem singleByteCorruptionIsDropped : Obligations.SingleByteCorruptionIsDropped := by
  intro s inst p payload bad check hlive hphase hlen hcorrupt
  have hbad : bad.length = payload.length := by
    rcases hcorrupt with ⟨k, c, -, -, rfl, -⟩ | ⟨rfl, -⟩
    · exact List.length_set
    · rfl
  have hsum : sum8 bad + check ≠ 0xFF#8 := by
    rw [ne_eq, completes_iff_checksum]
    rcases hcorrupt with ⟨k, c, hk, hc, rfl, rfl⟩ | ⟨rfl, hcheck⟩
    · exact fun h => sum8_set_ne hk hc ((BitVec.sub_right_inj _).mp h).symm
    · exact hcheck
  exact feed_frame_bad hlive hphase hlen hbad hsum

/-- Settles O52: the marker moves the instance on, and the next byte resyncs it (D5). -/
theorem spuriousMarkerDoesNotReachCollect : Obligations.SpuriousMarkerDoesNotReachCollect := by
  intro s inst b p hlive hphase hb
  have hrun : runBytes p [0x7E#8, b] = (p.toSeek, [(.header, none), (.resync, none)]) := by
    rw [runBytes_cons, consume_seekHeader hphase, if_pos rfl, runBytes_cons, consume_expectLengthHigh rfl, if_neg hb]
    rfl
  obtain ⟨-, hpayloads, houtputs, ⟨hparser, -⟩, -⟩ := feed_live [0x7E#8, b] hlive
  rw [hrun] at hpayloads houtputs hparser
  exact ⟨by rw [houtputs]; rfl, by rw [hpayloads]; rfl, by rw [hparser, toSeek_of_live hlive]; rfl⟩

/-! ### What the registers remember of the bytes fed -/

/-- The bytes seen so far end with the part of a frame that the registers stand for. -/
def Tracks (seen : List Byte) (p : Parser) : Prop :=
  match p.phase with
  | .seekHeader => True
  | .expectLengthHigh => ∃ before, seen = before ++ [0x7E#8]
  | .readLengthLow => ∃ before, seen = before ++ [0x7E#8, 0x00#8]
  | .collect => ∃ before L, seen = before ++ [0x7E#8, 0x00#8, L] ++ p.payload ∧
      p.payload.length + p.remainingLength.toNat = L.toNat ∧ p.runningChecksum = sum8 p.payload

section Tracking
variable {seen : List Byte} {p : Parser}

theorem tracks_expectLengthHigh (h : Tracks seen p) (hp : p.phase = .expectLengthHigh) :
    ∃ before, seen = before ++ [0x7E#8] := by
  rwa [Tracks, hp] at h

theorem tracks_readLengthLow (h : Tracks seen p) (hp : p.phase = .readLengthLow) :
    ∃ before, seen = before ++ [0x7E#8, 0x00#8] := by
  rwa [Tracks, hp] at h

theorem tracks_collect (h : Tracks seen p) (hp : p.phase = .collect) :
    ∃ before L, seen = before ++ [0x7E#8, 0x00#8, L] ++ p.payload ∧
      p.payload.length + p.remainingLength.toNat = L.toNat ∧ p.runningChecksum = sum8 p.payload := by
  rwa [Tracks, hp] at h

theorem tracks_of_seekHeader (hp : p.phase = .seekHeader) : Tracks seen p := by
  rw [Tracks, hp]
  trivial

/-- A consumed byte is remembered. -/
theorem consume_tracks (h : Tracks seen p) (b : Byte) : Tracks (seen ++ [b]) (consume p b).parser := by
  have hrow := consume_row p b
  generalize consume p b = r at hrow
  cases hrow with
  | header hp hb => exact ⟨seen, by rw [hb]⟩
  | discard hp hb => exact tracks_of_seekHeader hp
  | zero hp hb =>
    obtain ⟨before, rfl⟩ := tracks_expectLengthHigh h hp
    exact ⟨before, by simp [hb]⟩
  | length hp =>
    obtain ⟨before, rfl⟩ := tracks_readLengthLow h hp
    exact ⟨before, b, by simp [rowReadLengthLowLength], by simp [rowReadLengthLowLength], rfl⟩
  | payload hp hr =>
    obtain ⟨before, L, rfl, hlen, hsum⟩ := tracks_collect h hp
    have hrem := rowCollectPayload_remainingLength (toNat_pos hr) b
    have hpos := toNat_pos hr
    rw [Tracks, show (rowCollectPayload p b).parser.phase = .collect from hp]
    refine ⟨before, L, by simp [rowCollectPayload, payloadAppend], ?_, ?_⟩
    · rw [hrem, ← hlen]
      simp [rowCollectPayload, payloadAppend]
      omega
    · simp [rowCollectPayload, payloadAppend, hsum]
  | resync | frameOk | frameBad => exact tracks_of_seekHeader rfl

theorem runBytes_tracks (h : Tracks seen p) (bs : List Byte) : Tracks (seen ++ bs) (runBytes p bs).1 := by
  induction bs generalizing seen p with
  | nil => simpa [runBytes] using h
  | cons b bs ih =>
    rw [List.append_cons]
    exact ih (consume_tracks h b)

/-- A payload is emitted at the last byte of its frame. -/
theorem emitted_was_framed {b : Byte} {f : List Byte} (h : Tracks seen p) (hf : (consume p b).emitted = some f) :
    f.length ≤ 255 ∧ ∃ before, seen ++ [b] = before ++ envelope f := by
  obtain ⟨hp, hr, rfl, hsum⟩ := consume_emitted hf
  obtain ⟨before, L, rfl, hlen, hrc⟩ := tracks_collect h hp
  have hL : p.payload.length = L.toNat := by simpa [hr] using hlen
  rw [hrc] at hsum
  refine ⟨hL ▸ Nat.le_of_lt_succ L.isLt, before, ?_⟩
  simp [envelope, hL, (completes_iff_checksum _ _).mp hsum]

end Tracking

/-- Settles O55: the registers of the fed instance remember the bytes fed, from its initial state on. -/
theorem everyEmittedPayloadWasFramed : Obligations.EveryEmittedPayloadWasFramed := by
  intro s inst b bs f hinit hframe
  have hlive : s.Live inst Parser.initial := ⟨hinit, rfl, rfl⟩
  obtain ⟨-, -, -, ⟨hparser, -⟩, -⟩ := feed_live bs hlive
  obtain ⟨q, ⟨hq, -⟩, hemitted⟩ := live_of_feedByte_frame hframe
  obtain rfl : (runBytes Parser.initial bs).1 = q := Option.some.inj (hparser.symm.trans hq)
  exact emitted_was_framed (runBytes_tracks (seen := []) (tracks_of_seekHeader rfl) bs) hemitted

end Sys2Proof.Machine
end

section
/-! PROOFS. Laws of feeds (spec/10_state.md R31, spec/20_memory.md R50, spec/30_encoding.md R76, spec/41_parser.md R134,
R137): what is hidden, what commutes, what a feed's requests do, and fragmentation. -/

namespace Sys2Proof.Machine

/-! ### Before the length is read the frame registers are hidden (R31) -/

/-- The registers differ at most in the frame registers, and there only before the length is read. -/
def Alike (p q : Parser) : Prop :=
  q = p ∨ (p.phase ≠ .collect ∧ q.phase = p.phase ∧ q.isOpen = p.isOpen ∧ q.fault = p.fault)

theorem toSeek_congr {p q : Parser} (ho : q.isOpen = p.isOpen) (hf : q.fault = p.fault) : q.toSeek = p.toSeek := by
  simp [Parser.toSeek, ho, hf]

/-- On alike registers a byte does the same, and the registers stay alike. -/
theorem consume_alike {p q : Parser} (h : Alike p q) (b : Byte) :
    Alike (consume p b).parser (consume q b).parser ∧ (consume q b).event = (consume p b).event ∧
      (consume q b).emitted = (consume p b).emitted := by
  rcases h with rfl | ⟨hp, hphase, hopen, hfault⟩
  · exact ⟨.inl rfl, rfl, rfl⟩
  · have hrow := consume_row p b
    generalize consume p b = r at hrow
    cases hrow with
    | header hp' hb =>
      rw [consume_seekHeader (hphase.trans hp'), if_pos hb]
      exact ⟨.inr ⟨nofun, rfl, hopen, hfault⟩, rfl, rfl⟩
    | discard hp' hb =>
      rw [consume_seekHeader (hphase.trans hp'), if_neg hb]
      exact ⟨.inr ⟨hp, hphase, hopen, hfault⟩, rfl, rfl⟩
    | zero hp' hb =>
      rw [consume_expectLengthHigh (hphase.trans hp'), if_pos hb]
      exact ⟨.inr ⟨nofun, rfl, hopen, hfault⟩, rfl, rfl⟩
    | resync hp' hb =>
      rw [consume_expectLengthHigh (hphase.trans hp'), if_neg hb]
      exact ⟨.inl (toSeek_congr hopen hfault), rfl, rfl⟩
    | length hp' =>
      rw [consume_readLengthLow (hphase.trans hp')]
      exact ⟨.inl (by simp [rowReadLengthLowLength, hopen, hfault]), rfl, rfl⟩
    | payload hp' | frameOk hp' | frameBad hp' => exact absurd hp' hp

theorem runBytes_alike {p q : Parser} (h : Alike p q) (bs : List Byte) : (runBytes q bs).2 = (runBytes p bs).2 := by
  induction bs generalizing p q with
  | nil => rfl
  | cons b bs ih =>
    obtain ⟨halike, hevent, hemitted⟩ := consume_alike h b
    simp only [runBytes_cons, hevent, hemitted, ih halike]

/-- A feed that reaches no live instance drives the report of its first byte, and nothing more. -/
theorem feedOutputs_cons_error {s : State} {inst b : Byte} {e : Exceptional} (h : feedable inst b s = .error e)
    (bs : List Byte) : feedOutputs inst (b :: bs) s = [⟨none, none, some (.raised e)⟩] := by
  simp [feedOutputs, feedByte_error h, raise_out]

/-- Settles O49. -/
theorem hiddenRegistersAreNeverObserved : Obligations.HiddenRegistersAreNeverObserved := by
  intro s inst p q bs hs hphase hopen hfault hearly
  have hq : (s.setParser inst q).parser? inst = some q := parser?_setParser_same hs
  have hnotCollect : p.phase ≠ .collect := by rcases hearly with h | h | h <;> simp [h]
  cases hlive : p.live with
  | true =>
    obtain ⟨ho, hf⟩ := (live_iff p).mp hlive
    obtain ⟨-, -, hp', -⟩ := feed_live bs (show s.Live inst p from ⟨hs, ho, hf⟩)
    obtain ⟨-, -, hq', -⟩ := feed_live bs
      (show (s.setParser inst q).Live inst q from ⟨hq, hopen.trans ho, hfault.trans hf⟩)
    rw [hp', hq', runBytes_alike (.inr ⟨hnotCollect, hphase, hopen, hfault⟩)]
  | false =>
    have hlive' : q.live = p.live := by simp [Parser.live, Parser.faulted, hopen, hfault]
    cases bs with
    | nil => rfl
    | cons b bs =>
      rw [feedOutputs_cons_error (feedable_destroyed hs hlive),
        feedOutputs_cons_error (feedable_destroyed hq (hlive'.trans hlive))]

/-! ### Bytes for different instances (R50) -/

/-- What a FEED_BYTE does depends on the state only through the registers of its instance: from every state where these are
the same, it writes the same registers there, refuses alike and drives the same outputs. -/
theorem feedByte_local (s : State) (inst b : Byte) :
    ∃ (q : Parser) (refused : Bool) (out : Output), ∀ t : State, t.parser? inst = s.parser? inst →
      feedByte inst b t =
        { t with parsers := t.parsers.set inst.toNat q, refusalMark := t.refusalMark || refused, out := out } := by
  cases hp : s.parser? inst with
  | none =>
    refine ⟨Parser.initial, true, ⟨none, none, some (.raised (.noSuchInstance inst))⟩, fun t ht => ?_⟩
    have hset : t.parsers.set inst.toNat Parser.initial = t.parsers :=
      List.set_eq_of_length_le (List.getElem?_eq_none_iff.mp ht)
    rw [feedByte_error (feedable_missing ht), hset, Bool.or_true]
    rfl
  | some p =>
    cases hl : p.live with
    | true =>
      refine ⟨(consume p b).parser, false, ⟨some (consume p b).event, (consume p b).emitted, none⟩, fun t ht => ?_⟩
      have hlive : t.Live inst p := ⟨ht, (live_iff p).mp hl⟩
      rw [feedByte_live (feedable_of_live hlive), Bool.or_false]
      rfl
    | false =>
      refine ⟨{ p with fault := some .stateDestroyed }, false,
        ⟨none, none, some (.raised (.stateDestroyed inst b))⟩, fun t ht => ?_⟩
      rw [feedByte_error (feedable_destroyed ht hl), raise_stateDestroyed ht, Bool.or_false]

/-- A FEED_BYTE leaves the registers of every other instance. -/
theorem parser?_feedByte_other {i j : Byte} (h : j ≠ i) (b : Byte) (s : State) :
    (feedByte i b s).parser? j = s.parser? j := by
  obtain ⟨q, refused, out, hfeed⟩ := feedByte_local s i b
  rw [hfeed s rfl]
  exact parser?_setParser_other (s := s) h

/-- Settles O48: each byte writes at the place of its own instance, whose registers the other byte leaves. -/
theorem feedsOfDifferentInstancesCommute : Obligations.FeedsOfDifferentInstancesCommute := by
  intro s i j a b hne
  obtain ⟨p, mi, oi, hi⟩ := feedByte_local s i a
  obtain ⟨q, mj, oj, hj⟩ := feedByte_local s j b
  have hne' : i.toNat ≠ j.toNat := fun h => hne (BitVec.eq_of_toNat_eq h)
  refine ⟨_, _, _, _, rfl, rfl, rfl, rfl, ?_⟩
  rw [hi (feedByte j b s) (parser?_feedByte_other hne b s), hj (feedByte i a s) (parser?_feedByte_other hne.symm a s),
    hi s rfl, hj s rfl]
  exact ⟨List.set_comm _ _ hne', Bool.or_right_comm _ _ _, rfl, rfl⟩

/-! ### A feed and its requests (R76) -/

/-- A run goes on from the next state of its first step. -/
theorem run_succ {s t : State} (h : step s = .next t) (k : Nat) :
    Host.Core.run Sys2Proof.core (k + 1) s = Host.Core.run Sys2Proof.core k t := by
  simp only [Host.Core.run, Sys2Proof.core, h]

/-- A step that is presented a FEED_BYTE request on a live instance consumes its byte. -/
theorem step_feedByte_live {s : State} {inst b : Byte} {p : Parser} (h : s.Live inst p) (rest : List Input) :
    step { s with pending := .request (encode (.feedByte inst b)) :: rest } =
      .next { s.commit inst (consume p b) with pending := rest } :=
  (step_request rfl (decode_encodeFeed inst b)).trans (exec_feedByte_live (s := { s with pending := rest }) h)

/-- Settles O50, byte by byte. -/
theorem feedIsItsFeedByteRequests : Obligations.FeedIsItsFeedByteRequests := by
  intro bs s inst p hlive hpending
  induction bs generalizing s p with
  | nil =>
    have hsame : { s with pending := [] } = s := by rw [← hpending]
    exact congrArg Host.Outcome.next hsame
  | cons b bs ih =>
    rw [feed_cons_live hlive, List.length_cons, ← ih _ _ (live_commit hlive) hpending]
    exact run_succ (step_feedByte_live hlive _) bs.length

/-! ### Fragmentation (R137) -/

theorem feed_append_live (xs ys : List Byte) {s : State} {inst : Byte} {p : Parser} (h : s.Live inst p) :
    feed inst (xs ++ ys) s =
      ((feed inst ys (feed inst xs s).1).1, (feed inst xs s).2 ++ (feed inst ys (feed inst xs s).1).2) := by
  induction xs generalizing s p with
  | nil => rfl
  | cons b xs ih =>
    rw [List.cons_append, feed_cons_live h, feed_cons_live h, ih (live_commit h)]
    simp only [List.append_assoc]

/-- After a byte that reached no live instance another one does not reach it either, and changes nothing (R169). -/
theorem feed_after_error {s : State} {inst b : Byte} {e : Exceptional} (h : feedable inst b s = .error e)
    (ys : List Byte) :
    (feed inst ys (s.raise e)).1.parsers = (s.raise e).parsers ∧
      (feed inst ys (s.raise e)).1.refusalMark = (s.raise e).refusalMark ∧ (feed inst ys (s.raise e)).2 = [] := by
  cases ys with
  | nil => exact ⟨rfl, rfl, rfl⟩
  | cons c ys =>
    rcases feedable_error h with ⟨hp, rfl⟩ | ⟨p, hp, hl, rfl⟩
    · rw [feed_cons_error (feedable_missing (s := s.raise (.noSuchInstance inst)) hp)]
      exact ⟨rfl, rfl, rfl⟩
    · have hp' : (s.raise (.stateDestroyed inst b)).parser? inst = some { p with fault := some .stateDestroyed } := by
        rw [raise_stateDestroyed hp]
        exact parser?_setParser_same (s := s) hp
      rw [feed_cons_error (feedable_destroyed hp' (not_live_of_faulted rfl)), raise_stateDestroyed_faulted hp' rfl]
      exact ⟨rfl, rfl, rfl⟩

/-- Settles O51: on a live instance byte by byte; on another one only the first byte of all is answered. -/
theorem fragmentationDoesNotMatter : Obligations.FragmentationDoesNotMatter := by
  intro s inst xs ys
  refine ⟨fun p h => feed_append_live xs ys h, ?_⟩
  cases xs with
  | nil => exact ⟨rfl, rfl, rfl⟩
  | cons b xs =>
    rcases feedByte_cases inst b s with ⟨e, he, -⟩ | ⟨p, hlive, -⟩
    · obtain ⟨hparsers, hmark, hnothing⟩ := feed_after_error he ys
      rw [List.cons_append, feed_cons_error he, feed_cons_error he]
      exact ⟨hparsers, hmark, by rw [hnothing, List.append_nil]⟩
    · rw [feed_append_live (b :: xs) ys hlive]
      exact ⟨rfl, rfl, rfl⟩

end Sys2Proof.Machine
end
